-- ==== Sys2Proof/Word.lean ====
section
/-! DEFINITION. The widths GFCORE works with: 64-bit registers and command words, 65-bit operands, register
numbers, window offsets. -/

namespace Sys2Proof

/-- One byte lane of the bus (20_memory.md R63). -/
abbrev Byte := BitVec 8

/-- A 64-bit register of the window, a command word, an integer or an exponent (R60, R80, R83). -/
abbrev Word := BitVec 64

/-- A 65-bit operand register, wide enough for a polynomial of degree 64 (10_state.md R38). -/
abbrev Operand := BitVec 65

/-- A register field of the command word: four bits, of which only 0..7 name a register (30_encoding.md R88). -/
abbrev RegNum := BitVec 4

/-- A byte offset in the 512-byte register window (20_memory.md R60). -/
abbrev WinOffset := BitVec 9

end Sys2Proof
end

