-- ==== Sys2Proof/Machine/Galois.lean ====
section
/-! DEFINITION. The functions of 41_field_arith.md, 42_minpoly.md and 43_classify.md: the multiplier, the exponentiator,
the orbit product, gcd, reversal and classification. A ring element of degree n is a `BitVec n`. -/

namespace Sys2Proof.Machine

open Sys2Proof

/-- 41_field_arith.md R122: multiply by x modulo P. The shift drops bit n-1, and R is XORed in when it was set. -/
def gfMulx {n : Nat} (t R : BitVec n) : BitVec n := if t.msb then (t <<< 1) ^^^ R else t <<< 1

/-- The loop of 41_field_arith.md R123 from bit `i` on, `k` bits to go; `t` is a·x^i mod P. -/
def gfMulFrom {n : Nat} (b R : BitVec n) : (k i : Nat) → (acc t : BitVec n) → BitVec n
  | 0, _, acc, _ => acc
  | k + 1, i, acc, t => gfMulFrom b R k (i + 1) (if b.getLsbD i then acc ^^^ t else acc) (gfMulx t R)

/-- 41_field_arith.md R123: the multiplier. -/
def gfMul {n : Nat} (a b R : BitVec n) : BitVec n := gfMulFrom b R n 0 0#n a

/-- The loop of 41_field_arith.md R129 from bit `i` of the exponent on, `k` bits to go. -/
def gfPowFrom {n : Nat} (e : Word) (R : BitVec n) : (k i : Nat) → (r s : BitVec n) → BitVec n
  | 0, _, r, _ => r
  | k + 1, i, r, s => gfPowFrom e R k (i + 1) (if e.getLsbD i then gfMul r s R else r) (gfMul s s R)

/-- 41_field_arith.md R129: the exponentiator; all 64 bits of the exponent are scanned. -/
def gfPow {n : Nat} (a : BitVec n) (e : Word) (R : BitVec n) : BitVec n := gfPowFrom e R 64 0 1#n a

/-- 41_field_arith.md R128: the generator, x mod P. -/
def generator {n : Nat} (R : BitVec n) : BitVec n := gfMulx 1#n R

/-- 42_minpoly.md R140: root(e). -/
def rootOf {n : Nat} (e : Word) (R : BitVec n) : BitVec n := gfPow (generator R) e R

/-- One repetition of 42_minpoly.md R142 on the coefficient array: multiply by (x + r) and drop the top term.
F[j] <- F[j-1] XOR F[j]·r for j >= 1, F[0] <- F[0]·r; every right side is an old value, since j goes downwards. -/
def timesLinear {n : Nat} (r R : BitVec n) (F : List (BitVec n)) : List (BitVec n) :=
  List.zipWith (fun fj before => before ^^^ gfMul fj r R) F (0#n :: F)

/-- The loop of 42_minpoly.md R142: `k` repetitions, squaring r after each. -/
def orbitLoop {n : Nat} (R : BitVec n) : (k : Nat) → (F : List (BitVec n)) → (r : BitVec n) → List (BitVec n)
  | 0, F, _ => F
  | k + 1, F, r => orbitLoop R k (timesLinear r R F) (gfMul r r R)

/-- 42_minpoly.md R142: F[0..n-1], F[0] first. -/
def orbitProduct {n : Nat} (root R : BitVec n) : List (BitVec n) :=
  orbitLoop R n (1#n :: List.replicate (n - 1) 0#n) root

/-- 42_minpoly.md R143: every F[j] is 0 or 1. -/
def orbitCloses {n : Nat} (F : List (BitVec n)) : Bool := F.all fun f => f == 0#n || f == 1#n

/-- The loop of 42_minpoly.md R144 from F[j] on. -/
def collapseFrom {n : Nat} : (j : Nat) → (m : BitVec (n + 1)) → (F : List (BitVec n)) → BitVec (n + 1)
  | _, m, [] => m
  | j, m, f :: F => collapseFrom (j + 1) (if f = 1#n then m ||| (1#(n + 1) <<< j) else m) F

/-- 42_minpoly.md R144: bit j set iff F[j] = 1, and bit n set. -/
def collapse {n : Nat} (F : List (BitVec n)) : BitVec (n + 1) := collapseFrom 0 (1#(n + 1) <<< n) F

/-- 42_minpoly.md R142 to R144: the polynomial of a root, or nothing where the orbit does not close. -/
def minPoly {n : Nat} (root R : BitVec n) : Option (BitVec (n + 1)) :=
  if orbitCloses (orbitProduct root R) then some (collapse (orbitProduct root R)) else none

/-- The loop of 43_classify.md R160 with a bound on its passes: two passes at least halve the second number, so 130
passes are enough for 64-bit numbers (log 11). -/
def gcdLoop : (passes : Nat) → (a b : Nat) → Nat
  | 0, a, _ => a
  | k + 1, a, b => if b = 0 then a else gcdLoop k b (a % b)

/-- 43_classify.md R160: gcd of two 64-bit unsigned integers; gcd64(0, 0) = 0. -/
def gcd64 (a b : Word) : Word := BitVec.ofNat 64 (gcdLoop 130 a.toNat b.toNat)

/-- 43_classify.md R162: bit j of the result is bit n - j. -/
def revN {n : Nat} (m : BitVec (n + 1)) : BitVec (n + 1) := m.reverse

/-- What the classifier answers (43_classify.md R164). -/
structure Classification where
  orbit : Word
  prim : Bool
  selfRecip : Bool
  recipSmaller : Bool
deriving DecidableEq, Repr

/-- 43_classify.md R164: the classification of an exponent and a polynomial. -/
def classifyPoly {n : Nat} (e : Word) (m : BitVec (n + 1)) (G : Word) : Classification :=
  { orbit := if gcd64 e G = 0#64 then 0#64 else G / gcd64 e G
    prim := decide (gcd64 e G = 1#64)
    selfRecip := decide (revN m = m)
    recipSmaller := decide (revN m < m) }

end Sys2Proof.Machine
end

