-- ==== Sys2Proof/Syntax.lean ====
section
/-! DEFINITION. The commands of GFCORE: one constructor per row of spec/opcode_table.json (30_encoding.md R82). -/

namespace Sys2Proof

/-- A command with its operands, in the order RD, RA, RB of R82. A field that a command does not use is no argument
of its constructor. `classify` is the table's CLASS. -/
inductive Instr where
  | nop
  | add (d a b : RegNum)
  | mul (d a b : RegNum)
  | sqr (d a : RegNum)
  | pow (d a b : RegNum)
  | gen (d : RegNum)
  | minpe (d a : RegNum)
  | minpr (d a : RegNum)
  | gcd (d a b : RegNum)
  | recip (d a : RegNum)
  | classify (d a b : RegNum)
  | nkinit
  | nknext (d : RegNum)
  | run
deriving DecidableEq, Repr

end Sys2Proof
end

