-- ==== Sys2Proof/WellFormed.lean ====
section
/-! DEFINITION. Which commands are well formed: every register field used names one of V0..V7 (30_encoding.md R88). -/

namespace Sys2Proof

/-- R88: there are only eight operand registers, so a used register field is at most 7. -/
def RegNum.ok (r : RegNum) : Bool := decide (r.toNat < 8)

/-- Every register field the command uses is at most 7 (30_encoding.md R88, check (4) of R94). -/
def Instr.wf : Instr → Bool
  | .nop | .nkinit | .run => true
  | .gen d | .nknext d => RegNum.ok d
  | .sqr d a | .minpe d a | .minpr d a | .recip d a => RegNum.ok d && RegNum.ok a
  | .add d a b | .mul d a b | .pow d a b | .gcd d a b | .classify d a b =>
    RegNum.ok d && RegNum.ok a && RegNum.ok b

end Sys2Proof
end

