-- ==== Sys2Proof/Decode.lean ====
section
/-! DEFINITION. Decoding and encoding of the 64-bit command word (30_encoding.md R80 to R90, R94). -/

namespace Sys2Proof

/-- Why a word is no command: the first failing check of 30_encoding.md R94, (1) to (4). Each one is
ILLEGAL_COMMAND for the machine (60_exceptions.md R213). -/
inductive DecodeReject where
  /-- Check (1), R86: OP is not in the table of R82. -/
  | undefinedOp
  /-- Check (2), R87: a bit of RSV [63:20] is set. -/
  | reservedBits
  /-- Check (3), R85: a register field the command does not use is not 0. -/
  | unusedField
  /-- Check (4), R88: a register field the command uses holds 8..15. -/
  | registerRange
deriving DecidableEq, Repr

/-- R80: OP is [7:0]. -/
def opField (w : Word) : BitVec 8 := w.extractLsb' 0 8
/-- R80: RD is [11:8]. -/
def rdField (w : Word) : RegNum := w.extractLsb' 8 4
/-- R80: RA is [15:12]. -/
def raField (w : Word) : RegNum := w.extractLsb' 12 4
/-- R80: RB is [19:16]. -/
def rbField (w : Word) : RegNum := w.extractLsb' 16 4
/-- R80: RSV is [63:20]. -/
def rsvField (w : Word) : BitVec 44 := w.extractLsb' 20 44

/-- The opcode map of 30_encoding.md R82: the command an opcode names, with the fields it uses filled in. -/
def instrOfOp (op : BitVec 8) (d a b : RegNum) : Option Instr :=
  match op with
  | 0x00#8 => some .nop
  | 0x01#8 => some (.add d a b)
  | 0x02#8 => some (.mul d a b)
  | 0x03#8 => some (.sqr d a)
  | 0x04#8 => some (.pow d a b)
  | 0x05#8 => some (.gen d)
  | 0x08#8 => some (.minpe d a)
  | 0x09#8 => some (.minpr d a)
  | 0x0A#8 => some (.gcd d a b)
  | 0x0B#8 => some (.recip d a)
  | 0x0C#8 => some (.classify d a b)
  | 0x10#8 => some .nkinit
  | 0x11#8 => some (.nknext d)
  | 0x18#8 => some .run
  | _ => none

/-- The opcode of a command (30_encoding.md R82). -/
def Instr.opcode : Instr → BitVec 8
  | .nop => 0x00#8
  | .add _ _ _ => 0x01#8
  | .mul _ _ _ => 0x02#8
  | .sqr _ _ => 0x03#8
  | .pow _ _ _ => 0x04#8
  | .gen _ => 0x05#8
  | .minpe _ _ => 0x08#8
  | .minpr _ _ => 0x09#8
  | .gcd _ _ _ => 0x0A#8
  | .recip _ _ => 0x0B#8
  | .classify _ _ _ => 0x0C#8
  | .nkinit => 0x10#8
  | .nknext _ => 0x11#8
  | .run => 0x18#8

/-- What a command puts in RD; 0 where it does not use the field (30_encoding.md R85). -/
def Instr.rd : Instr → RegNum
  | .nop | .nkinit | .run => 0#4
  | .gen d | .nknext d | .sqr d _ | .minpe d _ | .minpr d _ | .recip d _ => d
  | .add d _ _ | .mul d _ _ | .pow d _ _ | .gcd d _ _ | .classify d _ _ => d

/-- What a command puts in RA; 0 where it does not use the field (30_encoding.md R85). -/
def Instr.ra : Instr → RegNum
  | .nop | .nkinit | .run | .gen _ | .nknext _ => 0#4
  | .sqr _ a | .minpe _ a | .minpr _ a | .recip _ a => a
  | .add _ a _ | .mul _ a _ | .pow _ a _ | .gcd _ a _ | .classify _ a _ => a

/-- What a command puts in RB; 0 where it does not use the field (30_encoding.md R85). -/
def Instr.rb : Instr → RegNum
  | .nop | .nkinit | .run | .gen _ | .nknext _ => 0#4
  | .sqr _ _ | .minpe _ _ | .minpr _ _ | .recip _ _ => 0#4
  | .add _ _ b | .mul _ _ b | .pow _ _ b | .gcd _ _ b | .classify _ _ b => b

/-- The column "n" of 30_encoding.md R82: whether the command reads DEGREE and can fail with INVALID_DEGREE. -/
def Instr.readsDegree : Instr → Bool
  | .nop | .gcd _ _ _ | .nknext _ => false
  | .add _ _ _ | .mul _ _ _ | .sqr _ _ | .pow _ _ _ | .gen _ | .minpe _ _ | .minpr _ _ => true
  | .recip _ _ | .classify _ _ _ | .nkinit | .run => true

/-- 30_encoding.md R94, checks (1) to (4) in their order; check (5), the degree, is the command's own (it is made
when the command executes). A field the command does not use is one its term does not keep, so check (3) compares
the word's fields with the term's. -/
def decode (w : Word) : Except DecodeReject Instr :=
  match instrOfOp (opField w) (rdField w) (raField w) (rbField w) with
  | none => .error .undefinedOp
  | some i =>
    if rsvField w ≠ 0#44 then .error .reservedBits
    else if rdField w ≠ i.rd ∨ raField w ≠ i.ra ∨ rbField w ≠ i.rb then .error .unusedField
    else if i.wf then .ok i
    else .error .registerRange

/-- Whether the word is RUN's (STATUS.RUNNING is 1 "while the command in progress is RUN", 10_state.md R24; log 7). -/
def isRunWord (w : Word) : Bool :=
  match decode w with
  | .ok .run => true
  | _ => false

/-- The command word of R80: RSV, RB, RA, RD, OP from the most significant end. -/
def encode (i : Instr) : Word := 0#44 ++ i.rb ++ i.ra ++ i.rd ++ i.opcode

/-- 20_memory.md R63: byte k of a transfer is bits [8k+7:8k]. -/
def laneByte (w : Word) (k : Nat) : Byte := w.extractLsb' (8 * k) 8

/-- The eight bytes of a transfer, byte 0 first (20_memory.md R63). -/
def busBytes (w : Word) : List Byte := (List.range 8).map (laneByte w)

/-- The register value of a transfer's bytes, byte 0 first; bytes past the eighth do not reach it (20_memory.md R63). -/
def ofBusBytes : List Byte → Word
  | [] => 0#64
  | b :: bs => (ofBusBytes bs <<< 8) ||| b.setWidth 64

/-- The decoder on a transfer's bytes. A command is one whole 64-bit word (30_encoding.md R90). -/
def decodeBytes (bs : List Byte) : Except DecodeReject Instr := decode (ofBusBytes bs)

/-- The command the decoder reads from a word numbered as spec/opcode_table.json numbers it: every bit at `nbits`
and above is 0, and the word reaches the core over byte lanes (20_memory.md R63). -/
def decodeTableWord (nbits w : Nat) : Option Instr :=
  match decodeBytes (busBytes (BitVec.ofNat 64 (w % 2 ^ nbits))) with
  | .ok i => some i
  | .error _ => none

end Sys2Proof
end

