-- ==== Sys2Proof/Config.lean ====
section
/-! DEFINITION. What an implementation fixes, and the free values. None has a body: no proof can see a value. -/

namespace Sys2Proof

/-- FIFO_DEPTH less one (00_scope.md R8: "an integer 1..65535", OPEN). -/
opaque Config.fifoDepthPred : Fin 65535

/-- FIFO_DEPTH as the 16 bits ID[63:48] hold (00_scope.md R8, 10_state.md R22; log 3). -/
def Config.fifoDepth : BitVec 16 := BitVec.ofNat 16 (Config.fifoDepthPred.val + 1)

/-- FREE VALUE: what the `k`-th read of NK_A or NK_CTL returns when read while RUNNING = 1 (44_run.md R194,
93_implementation_defined.md P8; log 4). -/
opaque Config.nkDraw : Nat → Word

/-- FREE VALUE: whether, after `moves` events that are no reads, the word of V[k] (its high word where `hi`) read while
BUSY = 1 is the new value rather than the old one (20_memory.md R69, 93_implementation_defined.md P9; log 5). -/
opaque Config.drawIsNew (moves : Nat) (k : BitVec 3) (hi : Bool) : Bool

end Sys2Proof
end

