-- ==== Sys2Proof/Machine/State.lean ====
section
/-! DEFINITION. The state of GFCORE as plain data (10_state.md R20), the events that drive it, and the reset state. -/

namespace Sys2Proof.Machine

open Sys2Proof

/-- NK_ST (10_state.md R40); the value 3 is unused and never produced (93_implementation_defined.md P13). -/
inductive NkStatus where
  /-- Never initialised since reset. -/
  | idle
  /-- The generator has candidates to look for. -/
  | active
  /-- The generator has passed its last candidate. -/
  | exhausted
deriving DecidableEq, Repr

/-- The necklace state (10_state.md R40): digit a[i] is bit i-1 of `a`. -/
structure Necklace where
  /-- NK_A: the digits. -/
  a : Word
  /-- NK_P: the period marker. -/
  p : BitVec 7
  /-- NK_N: the degree latched by NKINIT or RUN. -/
  n : BitVec 7
  /-- NK_ST. -/
  st : NkStatus
deriving DecidableEq, Repr

/-- One result of RUN, an entry of the FIFO and of PEND (10_state.md R41, R44). -/
structure Result where
  /-- POLY. -/
  poly : Operand
  /-- PRIM. -/
  prim : Bool
  /-- ORBIT. -/
  orbit : Word
deriving DecidableEq, Repr

/-- FLAGS (10_state.md R29). -/
structure Flags where
  /-- P, primitive: written by CLASS. -/
  p : Bool
  /-- S, self-reciprocal: written by CLASS. -/
  s : Bool
  /-- R, the reversed polynomial is numerically smaller: written by CLASS. -/
  r : Bool
  /-- X, exhausted or not initialised: written by NKINIT and NKNEXT. -/
  x : Bool
deriving DecidableEq, Repr

/-- The error causes of 60_exceptions.md R210 (codes 0x06 to 0xFF are never recorded, P14). -/
inductive ErrCause where
  /-- 0x01. -/
  | invalidDegree
  /-- 0x02. -/
  | arithInvariant
  /-- 0x03. -/
  | illegalCommand
  /-- 0x04. -/
  | cmdWhileBusy
  /-- 0x05. -/
  | writeWhileBusy
deriving DecidableEq, Repr

/-- The error record: ERR_CAUSE, ERR_INFO, ERR_DATA (10_state.md R25, R26, R27). -/
structure ErrRecord where
  cause : ErrCause
  info : Word
  data : Word
deriving DecidableEq, Repr

/-- What the core sequencer is doing (10_state.md R44). -/
inductive Sequencer where
  /-- No command in progress: STATUS.BUSY = 0. -/
  | idle
  /-- The command word in CMD is accepted and its first core step has not happened (20_memory.md R72). -/
  | accepted
  /-- RUN has initialised and is between two of its core steps (44_run.md R183). -/
  | runLoop
deriving DecidableEq, Repr

/-- How an access reaches the window: its offset, its width in bytes and its byte enables (20_memory.md R64). -/
structure Access where
  off : WinOffset
  width : Nat
  lanes : BitVec 8
deriving DecidableEq, Repr

/-- A host transaction (20_memory.md R62). -/
inductive HostTxn where
  /-- `MemRead(off, 8)`. -/
  | read (acc : Access)
  /-- `MemWrite(off, 8, v)`. -/
  | write (acc : Access) (v : Word)
deriving DecidableEq, Repr

/-- One event of the total order of 20_memory.md R71. -/
inductive Event where
  /-- The core sequencer's turn. -/
  | core
  /-- The host's turn. -/
  | host (t : HostTxn)
  /-- The reset input is asserted and released (70_reset_and_hazards.md R240). -/
  | rst
deriving DecidableEq, Repr

/-- The registers of the window (20_memory.md R61). -/
inductive WinReg where
  | id | ctrl | status | errCause | errInfo | errData | cmd | flags | irqEn | irqStatus
  | degree | redLo | redHi | groupOrder | ceiling | mode
  | irrCount | primCount | emitCount | nkA | nkCtl
  | resPolyLo | resInfo | resOrbit | resPop
  | vLo (k : BitVec 3) | vHi (k : BitVec 3)
  | reserved
deriving DecidableEq, Repr

/-- The state of the machine. The last four fields are the model's own, not the spec's (logs 1, 5, 14, 15). -/
structure State where
  /-- FIFO_DEPTH, the variable part of ID (10_state.md R22). -/
  fifoDepth : BitVec 16
  /-- STATUS.DONE (10_state.md R24, R45). -/
  done : Bool
  /-- STATUS.ABORTED (10_state.md R24). -/
  aborted : Bool
  /-- STATUS.ERR and, where it is 1, ERR_CAUSE, ERR_INFO, ERR_DATA (10_state.md R24 to R27). -/
  errRec : Option ErrRecord
  /-- CMD, the last accepted command word (10_state.md R28). -/
  cmd : Word
  /-- FLAGS (10_state.md R29). -/
  flags : Flags
  /-- IRQ_EN[2:0]: FIFO_EN, ERR_EN, CMDDONE_EN (10_state.md R35). -/
  irqEn : BitVec 3
  /-- IRQ_STATUS.CMDDONE (10_state.md R36). -/
  cmdDone : Bool
  /-- DEGREE.N (10_state.md R30). -/
  degree : BitVec 7
  /-- REDUCTION (10_state.md R31). -/
  reduction : Operand
  /-- GROUP_ORDER (10_state.md R32). -/
  groupOrder : Word
  /-- CEILING (10_state.md R33). -/
  ceiling : Word
  /-- MODE.PRIM_ONLY (10_state.md R34). -/
  primOnly : Bool
  /-- IRR_COUNT (10_state.md R37). -/
  irrCount : Word
  /-- PRIM_COUNT (10_state.md R37). -/
  primCount : Word
  /-- EMIT_COUNT (10_state.md R37). -/
  emitCount : Word
  /-- V0..V7 (10_state.md R38). -/
  v : Vector Operand 8
  /-- NK_A, NK_P, NK_N, NK_ST (10_state.md R40). -/
  nk : Necklace
  /-- The result FIFO, oldest entry first (10_state.md R41). -/
  fifo : List Result
  /-- The sequencer's phase (10_state.md R44); STATUS.BUSY and RUNNING are read from it (log 8). -/
  seq : Sequencer
  /-- PEND: the results of the current candidate still to be emitted (10_state.md R44). -/
  pend : List Result
  /-- The events still to come, the next one first (log 1). -/
  schedule : List Event
  /-- What the last host read returned (log 14). -/
  rdata : Word
  /-- How many reads of NK_A and NK_CTL have drawn a free value (log 15). -/
  draws : Nat
  /-- How many events that are no host reads have happened: core turns, host writes, resets (log 15). -/
  moves : Nat
deriving DecidableEq, Repr

/-- Why the machine stops with a fault: never. Every error of GFCORE is recorded and the machine goes on
(60_exceptions.md R214, R223), so there is no constructor (log 22; safe). -/
inductive Fault where
deriving DecidableEq, Repr

/-- Why the model gives no meaning. -/
inductive Refusal where
  /-- Raised by an arm of `exec` whose command has no meaning yet; safe. -/
  | notModelled (mnemonic : String)
  /-- Raised by the host's step for an access that is not an aligned 64-bit access with all lanes: "A model refuses
  such an access rather than giving it a meaning" (20_memory.md R64, P7; log 6); safe. -/
  | unperformedAccess (acc : Access)
deriving DecidableEq, Repr

/-- What a step or a meaning answers. -/
abbrev Answer := Host.Outcome State Fault Refusal

/-- The machine right after reset (10_state.md R47, 70_reset_and_hazards.md R241). -/
def State.reset : State where
  fifoDepth := Config.fifoDepth
  done := false
  aborted := false
  errRec := none
  cmd := 0#64
  flags := ⟨false, false, false, false⟩
  irqEn := 0#3
  cmdDone := false
  degree := 0#7
  reduction := 0#65
  groupOrder := 0#64
  ceiling := 0#64
  primOnly := false
  irrCount := 0#64
  primCount := 0#64
  emitCount := 0#64
  v := Vector.replicate 8 0#65
  nk := ⟨0#64, 0#7, 0#7, .idle⟩
  fifo := []
  seq := .idle
  pend := []
  schedule := []
  rdata := 0#64
  draws := 0
  moves := 0

end Sys2Proof.Machine
end

