-- ==== Sys2Proof/Machine/Flags.lean ====
section
/-! DEFINITION. FLAGS (10_state.md R29): its word and the writes of CLASS, NKINIT and NKNEXT. -/

namespace Sys2Proof.Machine

open Sys2Proof

/-- FLAGS as the host reads it: [0] P, [1] S, [2] R, [3] X, [63:4] 0. -/
def Flags.word (f : Flags) : Word :=
  0#60 ++ BitVec.ofBool f.x ++ BitVec.ofBool f.r ++ BitVec.ofBool f.s ++ BitVec.ofBool f.p

/-- CLASS writes P, S, R and leaves X (43_classify.md R165). -/
def State.setClassFlags (s : State) (p sr r : Bool) : State := { s with flags := ⟨p, sr, r, s.flags.x⟩ }

/-- NKINIT and NKNEXT write X and leave the rest (40_necklace.md R105, R106). -/
def State.setX (s : State) (x : Bool) : State := { s with flags := { s.flags with x := x } }

end Sys2Proof.Machine
end

