-- ==== Sys2Proof/Machine/Operands.lean ====
section
/-! DEFINITION. The operand forms of 30_encoding.md R83 and the operand register file (10_state.md R38, R39). -/

namespace Sys2Proof.Machine

open Sys2Proof

/-- V[r]. A field above 7 names no register and the decoder refuses it (R88); read here it gives 0 (log 12). -/
def State.getV (s : State) (r : RegNum) : Operand := s.v.getD r.toNat 0#65

/-- V[r] <- x, the whole 65-bit register (10_state.md R38). A field above 7 names no register (log 12). -/
def State.setV (s : State) (r : RegNum) (x : Operand) : State := { s with v := s.v.setIfInBounds r.toNat x }

/-- A register read as a field element: V[i][n-1:0] (R83). -/
def elementOf (n : Nat) (x : Operand) : BitVec n := x.setWidth n

/-- A register read as a polynomial: V[i][n:0] (R83). -/
def polynomialOf (n : Nat) (x : Operand) : BitVec (n + 1) := x.setWidth (n + 1)

/-- A register read as an integer or exponent: V[i][63:0] (R83). -/
def integerOf (x : Operand) : Word := x.setWidth 64

/-- Results are written zero-extended to 65 bits (R83). -/
def zext65 {w : Nat} (x : BitVec w) : Operand := x.setWidth 65

/-- The degree as a number: DEGREE.N (10_state.md R30). -/
def State.deg (s : State) : Nat := s.degree.toNat

/-- R(x), the pattern REDUCTION[n-1:0] (41_field_arith.md R121): bit n and above are ignored. -/
def State.red (s : State) (n : Nat) : BitVec n := s.reduction.setWidth n

/-- A write of Vk_LO: the other word's bit is unchanged (10_state.md R39). -/
def withLo (x : Operand) (w : Word) : Operand := x.extractLsb' 64 1 ++ w

/-- A write of Vk_HI: bit 0 of the data is bit 64, its other bits are ignored (10_state.md R39). -/
def withHi (x : Operand) (w : Word) : Operand := w.extractLsb' 0 1 ++ x.extractLsb' 0 64

/-- The low word of a 65-bit value. -/
def loWord (x : Operand) : Word := x.extractLsb' 0 64

/-- The high word of a 65-bit value: bit 64, the rest reserved and 0. -/
def hiWord (x : Operand) : Word := (x.extractLsb' 64 1).setWidth 64

end Sys2Proof.Machine
end

