-- ==== Sys2Proof/Machine/Ops.lean ====
section
/-! DEFINITION. The operations the meanings share: what STATUS shows, completing a command, recording an error (what
this machine has in place of taking an exception), clearing it (in place of a return), and reset. -/

namespace Sys2Proof.Machine

open Sys2Proof

/-- STATUS.BUSY: 1 from acceptance to completion (10_state.md R24). -/
def State.busy (s : State) : Bool := decide (s.seq ≠ .idle)

/-- STATUS.RUNNING: 1 while the command in progress is RUN (10_state.md R24, 20_memory.md R72; log 7). -/
def State.running (s : State) : Bool :=
  match s.seq with
  | .idle => false
  | .accepted => isRunWord s.cmd
  | .runLoop => true

/-- The FIFO holds FIFO_DEPTH entries (10_state.md R24; log 18). -/
def State.fifoFull (s : State) : Bool := decide (s.fifoDepth.toNat ≤ s.fifo.length)

/-- Whether a result is pushed: every one, or with MODE.PRIM_ONLY the primitive ones (44_run.md R186, R188). -/
def State.emits (s : State) (r : Result) : Bool := !s.primOnly || r.prim

/-- A result step that is not enabled: its result would be pushed and the FIFO is full (44_run.md R186, R189). -/
def State.held (s : State) : Bool :=
  match s.pend with
  | [] => false
  | r :: _ => !s.done && s.emits r && s.fifoFull

/-- STATUS.STALL: RUN waits for FIFO space (10_state.md R24, 44_run.md R189). -/
def State.stall (s : State) : Bool := decide (s.seq = .runLoop) && s.held

/-- 70_reset_and_hazards.md R241: every piece of state takes its reset value; ID (its FIFO_DEPTH) is unchanged, and so
are the model's own fields, which are no state of the machine (log 16). -/
def State.toReset (s : State) : State :=
  { State.reset with fifoDepth := s.fifoDepth, schedule := s.schedule, rdata := s.rdata, draws := s.draws,
                     moves := s.moves }

/-- 20_memory.md R72: CMD takes the word and BUSY becomes 1, in the step of the write. -/
def State.accept (s : State) (w : Word) : State := { s with cmd := w, seq := .accepted }

/-- 20_memory.md R73: BUSY, RUNNING and STALL become 0 and IRQ_STATUS.CMDDONE becomes 1. -/
def State.complete (s : State) : State := { s with seq := .idle, cmdDone := true }

/-- 60_exceptions.md R214, `raise Error(cause, info, data)`: the first error is kept, a later one leaves no record. -/
def State.raiseError (s : State) (c : ErrCause) (info data : Word) : State :=
  match s.errRec with
  | none => { s with errRec := some ⟨c, info, data⟩ }
  | some _ => s

/-- 60_exceptions.md R215: a failing command records its error with its own command word as ERR_INFO and completes in
the same step, with no other effect. -/
def State.failCommand (s : State) (c : ErrCause) (data : Word) : State := (s.raiseError c s.cmd data).complete

/-- 60_exceptions.md R220, CLRERR: the end of the host's handling (R224). -/
def State.clearError (s : State) : State := { s with errRec := none }

/-- DEGREE.N is a legal degree, 1..64 (10_state.md R30). -/
def State.degreeOk (s : State) : Bool := decide (1 ≤ s.deg ∧ s.deg ≤ 64)

/-- Check (5) of 30_encoding.md R94: a command that reads n fails with INVALID_DEGREE before any other effect when
DEGREE.N is not in 1..64 (60_exceptions.md R211). -/
def State.withDegree (s : State) (k : Nat → State) : Answer :=
  if s.degreeOk then .next (k s.deg)
  else .next (s.failCommand .invalidDegree (s.degree.setWidth 64))

/-- The end of a command that writes only its destination: V[d] <- x and completion, in one step (20_memory.md R68). -/
def State.finishV (s : State) (d : RegNum) (x : Operand) : State := (s.setV d x).complete

end Sys2Proof.Machine
end

