-- ==== Sys2Proof/Machine/Classify.lean ====
section
/-! DEFINITION. The commands GCD, RECIP and CLASS (43_classify.md). -/

namespace Sys2Proof.Machine

open Sys2Proof

/-- GCD vd, va, vb (43_classify.md R161): it does not read DEGREE. -/
def execGcd (d a b : RegNum) (s : State) : Answer :=
  .next (s.finishV d (zext65 (gcd64 (integerOf (s.getV a)) (integerOf (s.getV b)))))

/-- RECIP vd, va (43_classify.md R163). -/
def execRecip (d a : RegNum) (s : State) : Answer :=
  s.withDegree fun n => s.finishV d (zext65 (revN (polynomialOf n (s.getV a))))

/-- What CLASS does with a classification: FLAGS and V[d] are written together (43_classify.md R165). -/
def State.finishClass (s : State) (d : RegNum) (c : Classification) : State :=
  (s.setClassFlags c.prim c.selfRecip c.recipSmaller).finishV d (zext65 c.orbit)

/-- CLASS vd, va, vb (43_classify.md R165): e is V[a][63:0], m is V[b][n:0]. -/
def execClassify (d a b : RegNum) (s : State) : Answer :=
  s.withDegree fun n =>
    s.finishClass d (classifyPoly (integerOf (s.getV a)) (polynomialOf n (s.getV b)) s.groupOrder)

end Sys2Proof.Machine
end

