-- ==== Sys2Proof/Machine/Field.lean ====
section
/-! DEFINITION. The field commands ADD, MUL, SQR, POW, GEN (41_field_arith.md). -/

namespace Sys2Proof.Machine

open Sys2Proof

/-- ADD vd, va, vb (41_field_arith.md R125). -/
def execAdd (d a b : RegNum) (s : State) : Answer :=
  s.withDegree fun n => s.finishV d (zext65 (elementOf n (s.getV a) ^^^ elementOf n (s.getV b)))

/-- MUL vd, va, vb (41_field_arith.md R126). -/
def execMul (d a b : RegNum) (s : State) : Answer :=
  s.withDegree fun n => s.finishV d (zext65 (gfMul (elementOf n (s.getV a)) (elementOf n (s.getV b)) (s.red n)))

/-- SQR vd, va (41_field_arith.md R127). -/
def execSqr (d a : RegNum) (s : State) : Answer :=
  s.withDegree fun n => s.finishV d (zext65 (gfMul (elementOf n (s.getV a)) (elementOf n (s.getV a)) (s.red n)))

/-- POW vd, va, vb (41_field_arith.md R130): the exponent is V[b][63:0]. -/
def execPow (d a b : RegNum) (s : State) : Answer :=
  s.withDegree fun n => s.finishV d (zext65 (gfPow (elementOf n (s.getV a)) (integerOf (s.getV b)) (s.red n)))

/-- GEN vd (41_field_arith.md R128). -/
def execGen (d : RegNum) (s : State) : Answer :=
  s.withDegree fun n => s.finishV d (zext65 (generator (s.red n)))

end Sys2Proof.Machine
end

