-- ==== Sys2Proof/Machine/MinPoly.lean ====
section
/-! DEFINITION. The minimal-polynomial commands MINPE and MINPR (42_minpoly.md). -/

namespace Sys2Proof.Machine

open Sys2Proof

/-- The end of MINPE and MINPR: V[d] <- m, or ARITH_INVARIANT with V[d] unwritten (42_minpoly.md R143 to R146,
60_exceptions.md R212). -/
def State.finishMinPoly (s : State) (d : RegNum) (n : Nat) (root : BitVec n) (data : Word) : State :=
  match minPoly root (s.red n) with
  | some m => s.finishV d (zext65 m)
  | none => s.failCommand .arithInvariant data

/-- MINPE vd, va (42_minpoly.md R145): the root is root(e), ERR_DATA is e. -/
def execMinpe (d a : RegNum) (s : State) : Answer :=
  s.withDegree fun n => s.finishMinPoly d n (rootOf (integerOf (s.getV a)) (s.red n)) (integerOf (s.getV a))

/-- MINPR vd, va (42_minpoly.md R146): the root is V[a][n-1:0], ERR_DATA is that root. -/
def execMinpr (d a : RegNum) (s : State) : Answer :=
  s.withDegree fun n => s.finishMinPoly d n (elementOf n (s.getV a)) ((elementOf n (s.getV a)).setWidth 64)

end Sys2Proof.Machine
end

