-- ==== Sys2Proof/Machine/Necklace.lean ====
section
/-! DEFINITION. The necklace state machine and the commands NKINIT and NKNEXT (40_necklace.md). -/

namespace Sys2Proof.Machine

open Sys2Proof

/-- Digit a[i] of the pattern, i >= 1 (10_state.md R40); a[0] is the constant 0. -/
def digit (a : Word) (i : Nat) : Bool := if i = 0 then false else a.getLsbD (i - 1)

/-- a[i] <- b, i >= 1. -/
def setDigit (a : Word) (i : Nat) (b : Bool) : Word :=
  if b then a ||| (1#64 <<< (i - 1)) else a &&& ~~~(1#64 <<< (i - 1))

/-- The search of 40_necklace.md R103 downwards from t: the greatest position at most t whose digit is not 1, or 0. -/
def lastZero (a : Word) : (t : Nat) → Nat
  | 0 => 0
  | t + 1 => if digit a (t + 1) then lastZero a t else t + 1

/-- The copy loop of 40_necklace.md R103 from position j on, `k` positions to go: a[j] <- a[j - t]. -/
def copyPeriod (t : Nat) : (k j : Nat) → (a : Word) → Word
  | 0, _, a => a
  | k + 1, j, a => copyPeriod t k (j + 1) (setDigit a j (digit a (j - t)))

/-- 40_necklace.md R103, `nk_step()`: the new necklace state and whether the step found a prenecklace. -/
def nkStep (k : Necklace) : Necklace × Bool :=
  match lastZero k.a k.n.toNat with
  | 0 => ({ k with st := .exhausted }, false)
  | t + 1 =>
    ({ k with a := copyPeriod (t + 1) (k.n.toNat - (t + 1)) (t + 2) (setDigit k.a (t + 1) true)
              p := BitVec.ofNat 7 (t + 1) }, true)

/-- 40_necklace.md R104: the state is accepted as a candidate. -/
def nkAccepted (k : Necklace) : Bool := decide (k.p = k.n) && digit k.a k.n.toNat

/-- The loop of 40_necklace.md R106 and 44_run.md R184 with a bound on its steps: step until a candidate is accepted
(true) or the generator is exhausted (false). -/
def nkSeekFrom : (steps : Nat) → Necklace → Necklace × Bool
  | 0, k => ({ k with st := .exhausted }, false)
  | steps + 1, k =>
    match nkStep k with
    | (k', false) => (k', false)
    | (k', true) => if nkAccepted k' then (k', true) else nkSeekFrom steps k'

/-- The loop itself: every step makes the digit string lexicographically greater, so a string of at most 64 digits
takes fewer than 2^64 of them and the bound is never met (log 10). -/
def nkSeek (k : Necklace) : Necklace × Bool := nkSeekFrom (2 ^ 64) k

/-- The necklace state NKINIT and RUN start from (40_necklace.md R105, 44_run.md R182). -/
def nkStart (n : BitVec 7) : Necklace := ⟨0#64, 1#7, n, .active⟩

/-- NKINIT (40_necklace.md R105). -/
def execNkinit (s : State) : Answer :=
  s.withDegree fun _ => ({ s with nk := nkStart s.degree }.setX false).complete

/-- What NKNEXT does with the search's answer (40_necklace.md R106). -/
def State.finishNknext (s : State) (d : RegNum) : Necklace × Bool → State
  | (k, true) => ((({ s with nk := k }).setV d (zext65 k.a)).setX false).complete
  | (k, false) => ({ s with nk := k }.setX true).complete

/-- NKNEXT vd (40_necklace.md R106): it uses NK_N, not DEGREE. -/
def execNknext (d : RegNum) (s : State) : Answer :=
  if s.nk.st = .active then .next (s.finishNknext d (nkSeek s.nk))
  else .next (s.setX true).complete

end Sys2Proof.Machine
end

