-- ==== Sys2Proof/Machine/Run.lean ====
section
/-! DEFINITION. NOP and RUN: the enumeration pipeline (44_run.md). -/

namespace Sys2Proof.Machine

open Sys2Proof

/-- NOP (44_run.md R180): it completes. -/
def execNop (s : State) : Answer := .next s.complete

/-- RUN's initialisation (44_run.md R182). -/
def State.runInit (s : State) : State :=
  { s with
    nk := nkStart s.degree
    irrCount := 0#64, primCount := 0#64, emitCount := 0#64
    done := false, aborted := false
    fifo := [], pend := []
    seq := .runLoop }

/-- 44_run.md R185: what one candidate's polynomial contributes to PEND. -/
def reciprocalResults {n : Nat} (m : BitVec (n + 1)) (c : Classification) : List Result :=
  if c.recipSmaller then []
  else if c.selfRecip then [⟨zext65 m, c.prim, c.orbit⟩]
  else [⟨zext65 m, c.prim, c.orbit⟩, ⟨zext65 (revN m), c.prim, c.orbit⟩]

/-- The rest of a candidate step once the candidate is found, `n` being NK_N: minimal polynomial, classification, PEND;
or ARITH_INVARIANT, which ends the run with the necklace state as it is (44_run.md R184, R191). -/
def State.runExamine (s : State) (n : Nat) (e : Word) : State :=
  match minPoly (rootOf e (s.red n)) (s.red n) with
  | none => s.failCommand .arithInvariant e
  | some m => { s with pend := reciprocalResults m (classifyPoly e m s.groupOrder) }

/-- What a candidate step does with the search's answer (44_run.md R184). -/
def State.runCandidateWith (s : State) : Necklace × Bool → State
  | (k, false) => { s with nk := k }
  | (k, true) => { s with nk := k }.runExamine k.n.toNat k.a

/-- Candidate step (44_run.md R184). -/
def State.runCandidate (s : State) : State := s.runCandidateWith (nkSeek s.nk)

/-- The counting of one result (44_run.md R186); increments are modulo 2^64 (10_state.md R37). -/
def State.countResult (s : State) (r : Result) : State :=
  { s with
    irrCount := s.irrCount + 1#64
    primCount := if r.prim then s.primCount + 1#64 else s.primCount }

/-- The push of one result with the ceiling test (44_run.md R186, R187). -/
def State.pushResult (s : State) (r : Result) : State :=
  { s with
    fifo := s.fifo ++ [r]
    emitCount := s.emitCount + 1#64
    done := s.done || (decide (s.ceiling ≠ 0#64) && decide (s.emitCount + 1#64 = s.ceiling)) }

/-- Result step (44_run.md R186) for the head `r` of PEND. Cancelled: PEND is emptied, nothing is counted. Held by a
full FIFO (R189): no step, the state stays as it is. -/
def State.runResult (s : State) (r : Result) (rest : List Result) : State :=
  if s.done then { s with pend := [] }
  else if s.emits r && s.fifoFull then s
  else if s.emits r then { (s.countResult r).pushResult r with pend := rest }
  else { s.countResult r with pend := rest }

/-- The one kind of step that is possible after initialisation (44_run.md R183): a result step while PEND is not
empty, otherwise the final step when DONE = 1 or the generator is exhausted (R191), otherwise a candidate step. -/
def State.runStep (s : State) : State :=
  match s.pend with
  | r :: rest => s.runResult r rest
  | [] => if s.done || decide (s.nk.st = .exhausted) then s.complete else s.runCandidate

/-- RUN (44_run.md R181): the next core step of the command. The first one makes the degree check and initialises
(log 20). -/
def execRun (s : State) : Answer :=
  match s.seq with
  | .runLoop => .next s.runStep
  | _ => s.withDegree fun _ => s.runInit

end Sys2Proof.Machine
end

