-- ==== Sys2Proof/Machine/Dispatch.lean ====
section
/-! DEFINITION. The dispatch of a decoded command to its meaning. -/

namespace Sys2Proof.Machine

open Sys2Proof

-- One core step of the command `i` (44_run.md R183 for RUN, whose steps are several).
def exec (i : Instr) (s : State) : Host.Outcome State Fault Refusal :=
  match i with
  | .nop => Sys2Proof.Machine.execNop s
  | .add d a b => Sys2Proof.Machine.execAdd d a b s
  | .mul d a b => Sys2Proof.Machine.execMul d a b s
  | .sqr d a => Sys2Proof.Machine.execSqr d a s
  | .pow d a b => Sys2Proof.Machine.execPow d a b s
  | .gen d => Sys2Proof.Machine.execGen d s
  | .minpe d a => Sys2Proof.Machine.execMinpe d a s
  | .minpr d a => Sys2Proof.Machine.execMinpr d a s
  | .gcd d a b => Sys2Proof.Machine.execGcd d a b s
  | .recip d a => Sys2Proof.Machine.execRecip d a s
  | .classify d a b => Sys2Proof.Machine.execClassify d a b s
  | .nkinit => Sys2Proof.Machine.execNkinit s
  | .nknext d => Sys2Proof.Machine.execNknext d s
  | .run => Sys2Proof.Machine.execRun s

end Sys2Proof.Machine
end

