-- ==== Sys2Proof/Machine/Sequencer.lean ====
section
/-! DEFINITION. One turn of the core sequencer: the command word in CMD is decoded and takes its core step. -/

namespace Sys2Proof.Machine

open Sys2Proof

/-- The command in progress (10_state.md R44: "its word is CMD"). -/
def State.fetch (s : State) : Except DecodeReject Instr := decode s.cmd

/-- A core step (20_memory.md R71). With no command in progress the core does nothing (60_exceptions.md R232). A word
that fails the decode checks completes with ILLEGAL_COMMAND and no other effect (R213, 30_encoding.md R86 to R88). -/
def coreStep (s : State) : Answer :=
  if s.busy then
    match s.fetch with
    | .ok i => exec i s
    | .error _ => .next (s.failCommand .illegalCommand 0#64)
  else .next s

end Sys2Proof.Machine
end

