-- ==== Sys2Proof/Machine/Window.lean ====
section
/-! DEFINITION. The register window (20_memory.md): the address map, what each register shows, the lock of
10_state.md R46, and what a write of each register does. -/

namespace Sys2Proof.Machine

open Sys2Proof

/-- The only access GFCORE performs: 64 bits, at a multiple of 8, with all byte enables (20_memory.md R64). -/
def Access.performed (acc : Access) : Bool :=
  decide (acc.width = 8) && decide (acc.off.extractLsb' 0 3 = 0#3) && decide (acc.lanes = 0xFF#8)

/-- The registers below offset 0x100, by slot number (20_memory.md R61). -/
def lowReg : Nat → WinReg
  | 0 => .id | 1 => .ctrl | 2 => .status | 3 => .errCause | 4 => .errInfo | 5 => .errData | 6 => .cmd | 7 => .flags
  | 8 => .irqEn | 9 => .irqStatus | 10 => .degree | 11 => .redLo | 12 => .redHi | 13 => .groupOrder
  | 14 => .ceiling | 15 => .mode | 16 => .irrCount | 17 => .primCount | 18 => .emitCount | 19 => .nkA | 20 => .nkCtl
  | 24 => .resPolyLo | 25 => .resInfo | 26 => .resOrbit | 27 => .resPop
  | _ => .reserved

/-- 20_memory.md R61: the register at a byte offset that is a multiple of 8. Slot offset / 8; Vk_LO stands at
0x100 + 0x10*k and Vk_HI at 0x108 + 0x10*k for k = 0..7; the rest above 0x17F is reserved. -/
def winRegAt (off : WinOffset) : WinReg :=
  if off.toNat < 0x100 then lowReg (off.toNat / 8)
  else if off.toNat < 0x180 then
    if off.getLsbD 3 then .vHi (off.extractLsb' 4 3) else .vLo (off.extractLsb' 4 3)
  else .reserved

/-- The registers locked while STATUS.BUSY = 1, CMD aside (10_state.md R46). -/
def WinReg.locked : WinReg → Bool
  | .degree | .redLo | .redHi | .groupOrder | .ceiling | .mode | .vLo _ | .vHi _ => true
  | .id | .ctrl | .status | .errCause | .errInfo | .errData | .cmd | .flags | .irqEn | .irqStatus => false
  | .irrCount | .primCount | .emitCount | .nkA | .nkCtl => false
  | .resPolyLo | .resInfo | .resOrbit | .resPop | .reserved => false

/-- The codes of 60_exceptions.md R210. -/
def ErrCause.code : ErrCause → BitVec 8
  | .invalidDegree => 0x01#8
  | .arithInvariant => 0x02#8
  | .illegalCommand => 0x03#8
  | .cmdWhileBusy => 0x04#8
  | .writeWhileBusy => 0x05#8

/-- The two bits of NK_ST (10_state.md R40). -/
def NkStatus.bits : NkStatus → BitVec 2
  | .idle => 0#2
  | .active => 1#2
  | .exhausted => 2#2

/-- ID: FIFO_DEPTH, NREG = 8, NMAX = 64, MAGIC "GF", SPEC_REV 7 (10_state.md R22). -/
def State.idWord (s : State) : Word := s.fifoDepth ++ 0x08#8 ++ 0x40#8 ++ 0x4746#16 ++ 0x0007#16

/-- FIFO_COUNT (10_state.md R24). -/
def State.fifoCount (s : State) : BitVec 16 := BitVec.ofNat 16 s.fifo.length

/-- STATUS.FIFO_NE (10_state.md R24). -/
def State.fifoNe (s : State) : Bool := !s.fifo.isEmpty

/-- STATUS (10_state.md R24): [0] BUSY, [1] DONE, [2] ABORTED, [3] ERR, [4] FIFO_NE, [5] FIFO_FULL, [6] STALL,
[7] RUNNING, [15:8] 0, [31:16] FIFO_COUNT, [63:32] 0. -/
def State.statusWord (s : State) : Word :=
  0#32 ++ s.fifoCount ++ 0#8 ++ BitVec.ofBool s.running ++ BitVec.ofBool s.stall ++ BitVec.ofBool s.fifoFull
    ++ BitVec.ofBool s.fifoNe ++ BitVec.ofBool s.errRec.isSome ++ BitVec.ofBool s.aborted ++ BitVec.ofBool s.done
    ++ BitVec.ofBool s.busy

/-- ERR_CAUSE: [7:0] CAUSE, 0 when none (10_state.md R25). -/
def State.errCauseWord (s : State) : Word :=
  match s.errRec with
  | none => 0#64
  | some r => 0#56 ++ r.cause.code

/-- ERR_INFO (10_state.md R26). -/
def State.errInfoWord (s : State) : Word :=
  match s.errRec with
  | none => 0#64
  | some r => r.info

/-- ERR_DATA (10_state.md R27). -/
def State.errDataWord (s : State) : Word :=
  match s.errRec with
  | none => 0#64
  | some r => r.data

/-- NK_CTL: [6:0] NK_P, [7] 0, [14:8] NK_N, [15] 0, [17:16] NK_ST, [63:18] 0 (10_state.md R40). -/
def Necklace.ctlWord (k : Necklace) : Word := 0#46 ++ k.st.bits ++ 0#1 ++ k.n ++ 0#1 ++ k.p

/-- RES_POLY_LO (10_state.md R42). -/
def State.resPolyLoWord (s : State) : Word :=
  match s.fifo with
  | [] => 0#64
  | r :: _ => loWord r.poly

/-- RES_INFO: [0] POLY[64], [7:1] 0, [8] PRIM, [62:9] 0, [63] VALID (10_state.md R42). -/
def State.resInfoWord (s : State) : Word :=
  match s.fifo with
  | [] => 0#64
  | r :: _ => 1#1 ++ 0#54 ++ BitVec.ofBool r.prim ++ 0#7 ++ r.poly.extractLsb' 64 1

/-- RES_ORBIT (10_state.md R42). -/
def State.resOrbitWord (s : State) : Word :=
  match s.fifo with
  | [] => 0#64
  | r :: _ => r.orbit

/-- What a register holds as the host sees it (10_state.md R22 to R43): the value of a read, where the rules give one.
Write-only registers and reserved offsets show 0 (R23, R43, 20_memory.md R65). -/
def State.view (s : State) : WinReg → Word
  | .id => s.idWord
  | .ctrl => 0#64
  | .status => s.statusWord
  | .errCause => s.errCauseWord
  | .errInfo => s.errInfoWord
  | .errData => s.errDataWord
  | .cmd => s.cmd
  | .flags => s.flags.word
  | .irqEn => 0#61 ++ s.irqEn
  | .irqStatus => 0#63 ++ BitVec.ofBool s.cmdDone
  | .degree => 0#57 ++ s.degree
  | .redLo => loWord s.reduction
  | .redHi => hiWord s.reduction
  | .groupOrder => s.groupOrder
  | .ceiling => s.ceiling
  | .mode => 0#63 ++ BitVec.ofBool s.primOnly
  | .irrCount => s.irrCount
  | .primCount => s.primCount
  | .emitCount => s.emitCount
  | .nkA => s.nk.a
  | .nkCtl => s.nk.ctlWord
  | .resPolyLo => s.resPolyLoWord
  | .resInfo => s.resInfoWord
  | .resOrbit => s.resOrbitWord
  | .resPop => 0#64
  | .vLo k => loWord (s.getV (k.setWidth 4))
  | .vHi k => hiWord (s.getV (k.setWidth 4))
  | .reserved => 0#64

/-- The interrupt output, a level (60_exceptions.md R221). -/
def State.irq (s : State) : Bool :=
  (s.cmdDone && s.irqEn.getLsbD 0) || (s.errRec.isSome && s.irqEn.getLsbD 1) || (s.fifoNe && s.irqEn.getLsbD 2)

/-- ABORT (44_run.md R190): while RUNNING = 1, ABORTED <- 1 if DONE is 0, and then DONE <- 1. -/
def State.abort (s : State) : State :=
  if s.running then { s with aborted := s.aborted || !s.done, done := true } else s

/-- A write of CTRL (10_state.md R23): SRST wins over the other bits; ABORT and CLRERR may act together. -/
def State.writeCtrl (s : State) (w : Word) : State :=
  if w.getLsbD 1 then s.toReset
  else
    let s₁ := if w.getLsbD 0 then s.abort else s
    if w.getLsbD 2 then s₁.clearError else s₁

/-- A write of CMD: accepted when idle, otherwise CMD_WHILE_BUSY (10_state.md R28, 60_exceptions.md R216). -/
def State.writeCmd (s : State) (w : Word) : State :=
  if s.busy then s.raiseError .cmdWhileBusy 0x030#64 w else s.accept w

/-- RES_POP: the head goes, if there is one (10_state.md R43). -/
def State.popFifo (s : State) : State := { s with fifo := s.fifo.tail }

/-- What storing a word in a register that stores it does: the configuration registers, the operand words, IRQ_EN.
Reserved bits are ignored (20_memory.md R65). -/
def State.store (s : State) (w : Word) : WinReg → State
  | .degree => { s with degree := w.extractLsb' 0 7 }
  | .redLo => { s with reduction := withLo s.reduction w }
  | .redHi => { s with reduction := withHi s.reduction w }
  | .groupOrder => { s with groupOrder := w }
  | .ceiling => { s with ceiling := w }
  | .mode => { s with primOnly := w.getLsbD 0 }
  | .vLo k => s.setV (k.setWidth 4) (withLo (s.getV (k.setWidth 4)) w)
  | .vHi k => s.setV (k.setWidth 4) (withHi (s.getV (k.setWidth 4)) w)
  | .irqEn => { s with irqEn := w.extractLsb' 0 3 }
  | .id | .ctrl | .status | .errCause | .errInfo | .errData | .cmd | .flags | .irqStatus => s
  | .irrCount | .primCount | .emitCount | .nkA | .nkCtl => s
  | .resPolyLo | .resInfo | .resOrbit | .resPop | .reserved => s

/-- A performed write of the register `r` at offset `off` (20_memory.md R67, 10_state.md R46). A locked register while
busy keeps its value and WRITE_WHILE_BUSY is raised (60_exceptions.md R217). Read-only registers and reserved offsets
ignore it (R218). -/
def State.writeReg (s : State) (off : WinOffset) (r : WinReg) (w : Word) : State :=
  match r with
  | .ctrl => s.writeCtrl w
  | .cmd => s.writeCmd w
  | .irqStatus => if w.getLsbD 0 then { s with cmdDone := false } else s
  | .resPop => s.popFifo
  | r =>
    if r.locked && s.busy then s.raiseError .writeWhileBusy (off.setWidth 64) w
    else s.store w r

end Sys2Proof.Machine
end

