-- ==== Sys2Proof/Machine/Bus.lean ====
section
/-! DEFINITION. One host transaction and one assertion of the reset input. -/

namespace Sys2Proof.Machine

open Sys2Proof

/-- The model's own count of the events that are no host reads goes up (log 15). -/
def State.tick (s : State) : State := { s with moves := s.moves + 1 }

/-- The state the core's next turn would leave. -/
def State.afterCommand (s : State) : State :=
  match coreStep s.tick with
  | .next t => t
  | .fault _ => s
  | .refused _ => s

/-- Whether a read of the register is a fresh free value each time: NK_A and NK_CTL while RUNNING = 1 (44_run.md R194,
P8; log 4). -/
def State.drawsOn (s : State) : WinReg → Bool
  | .nkA | .nkCtl => s.running
  | .id | .ctrl | .status | .errCause | .errInfo | .errData | .cmd | .flags | .irqEn | .irqStatus => false
  | .degree | .redLo | .redHi | .groupOrder | .ceiling | .mode | .irrCount | .primCount | .emitCount => false
  | .resPolyLo | .resInfo | .resOrbit | .resPop | .vLo _ | .vHi _ | .reserved => false

/-- Whether a read of the register now gives the value of after the core's next turn: an operand word while BUSY = 1,
where the free choice says so (20_memory.md R69, P9; log 5). The choice belongs to the word and to the count of moves,
which no read changes, so a word read twice with only reads between returns the same value (R66). Where the command does
not write that register the two values are equal. -/
def State.seesNew (s : State) : WinReg → Bool
  | .vLo k => s.busy && Config.drawIsNew s.moves k false
  | .vHi k => s.busy && Config.drawIsNew s.moves k true
  | .id | .ctrl | .status | .errCause | .errInfo | .errData | .cmd | .flags | .irqEn | .irqStatus => false
  | .degree | .redLo | .redHi | .groupOrder | .ceiling | .mode | .irrCount | .primCount | .emitCount => false
  | .nkA | .nkCtl | .resPolyLo | .resInfo | .resOrbit | .resPop | .reserved => false

/-- What a read that is no fresh free value returns. -/
def State.readValue (s : State) (r : WinReg) : Word := if s.seesNew r then s.afterCommand.view r else s.view r

/-- A performed read: it changes no state of the machine (20_memory.md R66), only what the host has got and, for a
fresh free value, the model's count of draws. -/
def State.readReg (s : State) (r : WinReg) : State :=
  if s.drawsOn r then { s with rdata := Config.nkDraw s.draws, draws := s.draws + 1 }
  else { s with rdata := s.readValue r }

/-- A host transaction (20_memory.md R62, R64). -/
def hostStep (t : HostTxn) (s : State) : Answer :=
  match t with
  | .read acc => if acc.performed then .next (s.readReg (winRegAt acc.off)) else .refused (.unperformedAccess acc)
  | .write acc w =>
    if acc.performed then .next (s.tick.writeReg acc.off (winRegAt acc.off) w) else .refused (.unperformedAccess acc)

/-- One event of the total order (20_memory.md R71). -/
def eventStep (ev : Event) (s : State) : Answer :=
  match ev with
  | .core => coreStep s.tick
  | .host t => hostStep t s
  | .rst => .next s.tick.toReset

end Sys2Proof.Machine
end

