-- ==== Sys2Proof/Machine/Step.lean ====
section
/-! DEFINITION. The step of the machine: the next event of the schedule, or the core's turn when none is listed. -/

namespace Sys2Proof.Machine

open Sys2Proof

/-- The next event and the state with that event taken off the schedule (log 1). -/
def State.nextEvent (s : State) : Event × State :=
  match s.schedule with
  | [] => (.core, s)
  | ev :: evs => (ev, { s with schedule := evs })

/-- One step of the interleaving of 20_memory.md R71. -/
def step (s : State) : Answer := eventStep s.nextEvent.1 s.nextEvent.2

/-- `s` with the word accepted as the command in progress and the core's turn next (20_memory.md R72; log 2). -/
def State.withFetchWord (s : State) (nbits w : Nat) : State :=
  { s.accept (BitVec.ofNat 64 (w % 2 ^ nbits)) with schedule := .core :: s.schedule }

end Sys2Proof.Machine
end

