-- ==== Sys2Proof/Safety.lean ====
section
/-! DEFINITION. What counts as a legal state and a safe run, and the mathematics the claims are stated in: the order
of digit strings, Lyndon words, polynomials over GF(2). -/

namespace Sys2Proof.Machine

open Sys2Proof

/-- A legal necklace state (10_state.md R40): all zero while IDLE; afterwards a degree in 1..64, a period marker in
1..n and bits [63:n] zero. -/
structure Necklace.Legal (k : Necklace) : Prop where
  idle_zero : k.st = .idle → k = ⟨0#64, 0#7, 0#7, .idle⟩
  n_range : k.st ≠ .idle → 1 ≤ k.n.toNat ∧ k.n.toNat ≤ 64
  p_range : k.st ≠ .idle → 1 ≤ k.p.toNat ∧ k.p.toNat ≤ k.n.toNat
  high_zero : k.a >>> k.n.toNat = 0#64

/-- The invariant of the machine: what every step keeps, from any state that has it. -/
structure State.Inv (s : State) : Prop where
  /-- FIFO_DEPTH is 1..65535 (00_scope.md R8). -/
  depth_pos : s.fifoDepth ≠ 0#16
  /-- The FIFO holds at most FIFO_DEPTH entries (10_state.md R41). -/
  fifo_le : s.fifo.length ≤ s.fifoDepth.toNat
  /-- PEND holds at most two results, and none outside RUN (10_state.md R44). -/
  pend_le : s.pend.length ≤ 2
  pend_run : s.seq ≠ .runLoop → s.pend = []
  /-- RUN in progress: its word is in CMD and it runs with the degree it latched (44_run.md R181, R182). -/
  run_word : s.seq = .runLoop → s.cmd = 0x18#64
  run_degree : s.seq = .runLoop → s.degreeOk = true ∧ s.nk.n = s.degree ∧ s.nk.st ≠ .idle
  /-- ABORTED is set only together with DONE (10_state.md R24). -/
  aborted_done : s.aborted = true → s.done = true
  /-- The necklace state is legal. -/
  nk_legal : s.nk.Legal

/-- The locked registers by offset (10_state.md R46, 20_memory.md R61): DEGREE, RED_LO, RED_HI, GROUP_ORDER, CEILING,
MODE, and every Vk_LO and Vk_HI. -/
abbrev LockedOffset (off : WinOffset) : Prop :=
  off.toNat % 8 = 0 ∧ (0x050 ≤ off.toNat ∧ off.toNat ≤ 0x078 ∨ 0x100 ≤ off.toNat ∧ off.toNat < 0x180)

/-- What an error record says of its cause (60_exceptions.md R210). -/
def ErrRecord.Legal (r : ErrRecord) : Prop :=
  match r.cause with
  | .invalidDegree =>
    (∃ i, decode r.info = .ok i ∧ i.readsDegree = true) ∧ (r.data = 0#64 ∨ 65 ≤ r.data.toNat ∧ r.data.toNat ≤ 127)
  | .arithInvariant => ∃ d a, decode r.info = .ok (.minpe d a) ∨ decode r.info = .ok (.minpr d a) ∨ decode r.info = .ok .run
  | .illegalCommand => (∃ e, decode r.info = .error e) ∧ r.data = 0#64
  | .cmdWhileBusy => r.info = 0x030#64
  | .writeWhileBusy => ∃ off : WinOffset, r.info = off.setWidth 64 ∧ LockedOffset off

/-- The safe pattern of 70_reset_and_hazards.md R254: with CEILING from 1 to FIFO_DEPTH, RUN has never pushed more
entries than it counted, and it is done once the count has reached the ceiling. -/
def State.CeilingSafe (s : State) : Prop :=
  s.seq = .runLoop → s.ceiling ≠ 0#64 → s.ceiling.toNat ≤ s.fifoDepth.toNat →
    s.fifo.length ≤ s.emitCount.toNat ∧ (s.done = true ∨ s.emitCount.toNat < s.ceiling.toNat)

/-- An event that takes every register to its reset value: the reset input, or a write of CTRL with SRST = 1. -/
def Event.resets : Event → Prop
  | .rst => True
  | .host (.write acc w) => acc.performed = true ∧ winRegAt acc.off = .ctrl ∧ w.getLsbD 1 = true
  | .host (.read _) => False
  | .core => False

/-- One row of the opcode map of 30_encoding.md R82: the opcode, the register fields used, the column "n". -/
structure CommandRow where
  op : BitVec 8
  usesD : Bool
  usesA : Bool
  usesB : Bool
  readsN : Bool
deriving DecidableEq, Repr

/-- The opcode map of 30_encoding.md R82, in its order. -/
def commandTable : List CommandRow :=
  [⟨0x00, false, false, false, false⟩, ⟨0x01, true, true, true, true⟩, ⟨0x02, true, true, true, true⟩,
   ⟨0x03, true, true, false, true⟩, ⟨0x04, true, true, true, true⟩, ⟨0x05, true, false, false, true⟩,
   ⟨0x08, true, true, false, true⟩, ⟨0x09, true, true, false, true⟩, ⟨0x0A, true, true, true, false⟩,
   ⟨0x0B, true, true, false, true⟩, ⟨0x0C, true, true, true, true⟩, ⟨0x10, false, false, false, true⟩,
   ⟨0x11, true, false, false, false⟩, ⟨0x18, false, false, false, true⟩]

/-- Check (3) of 30_encoding.md R94 for one row: every register field the command does not use is 0. -/
def CommandRow.unusedZero (c : CommandRow) (w : Word) : Prop :=
  (c.usesD = false → w.extractLsb' 8 4 = 0#4) ∧ (c.usesA = false → w.extractLsb' 12 4 = 0#4) ∧
    (c.usesB = false → w.extractLsb' 16 4 = 0#4)

/-- Check (4) of 30_encoding.md R94 for one row: every register field the command uses is at most 7. -/
def CommandRow.usedInRange (c : CommandRow) (w : Word) : Prop :=
  (c.usesD = true → (w.extractLsb' 8 4).toNat ≤ 7) ∧ (c.usesA = true → (w.extractLsb' 12 4).toNat ≤ 7) ∧
    (c.usesB = true → (w.extractLsb' 16 4).toNat ≤ 7)

/-- 30_encoding.md R80, "as an integer, word = (RB << 16) | (RA << 12) | (RD << 8) | OP". -/
def commandWord (op : BitVec 8) (d a b : RegNum) : Word :=
  b.setWidth 64 <<< 16 ||| a.setWidth 64 <<< 12 ||| d.setWidth 64 <<< 8 ||| op.setWidth 64

/-- DEGREE.N is in 1..64 (10_state.md R30). -/
abbrev State.DegreeLegal (s : State) : Prop := 1 ≤ s.degree.toNat ∧ s.degree.toNat ≤ 64

/-- The end of a command whose only effect is V[d] <- x: the command is complete (20_memory.md R73), nothing else has
changed. -/
def State.wrote (s : State) (d : RegNum) (x : Operand) : State :=
  { s with v := s.v.setIfInBounds d.toNat x, seq := .idle, cmdDone := true }

/-- The record after an error: the first one is kept (60_exceptions.md R214). -/
def State.recorded (s : State) (r : ErrRecord) : Option ErrRecord :=
  match s.errRec with
  | some first => some first
  | none => some r

/-- The end of a failing command (60_exceptions.md R215): the record, completion, nothing else. -/
def State.failedWith (s : State) (r : ErrRecord) : State :=
  { s with errRec := s.recorded r, seq := .idle, cmdDone := true }

/-- The end of a command that fails with INVALID_DEGREE (60_exceptions.md R211). -/
def State.failedDegree (s : State) : State := s.failedWith ⟨.invalidDegree, s.cmd, s.degree.setWidth 64⟩

/-- `s` with a host write of `w` at `off` as its next event: aligned accesses of 64 bits with all lanes. -/
def State.hostWrites (s : State) (off : WinOffset) (w : Word) : State :=
  { s with schedule := .host (.write ⟨off, 8, 0xFF#8⟩ w) :: s.schedule }

/-- `s` with a host read at `off` as its next event. -/
def State.hostReads (s : State) (off : WinOffset) : State :=
  { s with schedule := .host (.read ⟨off, 8, 0xFF#8⟩) :: s.schedule }

/-- The register map of 20_memory.md R61 as a host reads it, offset by offset, for the registers whose read is never a
free choice (all but NK_A, NK_CTL and the operand words) and that are not reserved. ID is R22, CMD R28, IRQ_EN R35,
IRQ_STATUS R36, the configuration R30 to R34, the counters R37, CTRL and RES_POP read 0 (R23, R43). -/
def State.shown (s : State) : List (WinOffset × Word) :=
  [(0x000, s.fifoDepth ++ 0x084047460007#48), (0x008, 0#64), (0x010, s.view .status), (0x018, s.view .errCause),
   (0x020, s.view .errInfo), (0x028, s.view .errData), (0x030, s.cmd), (0x038, s.view .flags),
   (0x040, s.irqEn.setWidth 64), (0x048, if s.cmdDone then 1#64 else 0#64)] ++
  [(0x050, s.degree.setWidth 64), (0x058, s.reduction.setWidth 64),
   (0x060, (s.reduction.extractLsb' 64 1).setWidth 64), (0x068, s.groupOrder), (0x070, s.ceiling),
   (0x078, if s.primOnly then 1#64 else 0#64)] ++
  [(0x080, s.irrCount), (0x088, s.primCount), (0x090, s.emitCount), (0x0C0, s.view .resPolyLo),
   (0x0C8, s.view .resInfo), (0x0D0, s.view .resOrbit), (0x0D8, 0#64)]

/-- `s` with the core's turn as its next event. -/
def State.coreMoves (s : State) : State := { s with schedule := .core :: s.schedule }

/-- The reserved ranges of 20_memory.md R61. -/
abbrev ReservedOffset (off : WinOffset) : Prop :=
  off.toNat % 8 = 0 ∧
    (0x0A8 ≤ off.toNat ∧ off.toNat ≤ 0x0B8 ∨ 0x0E0 ≤ off.toNat ∧ off.toNat ≤ 0x0F8 ∨ 0x180 ≤ off.toNat)

/-- The read-only registers by offset (20_memory.md R61): ID, STATUS to ERR_DATA, FLAGS, the counters, NK_A, NK_CTL and
the three head words. -/
abbrev ReadOnlyOffset (off : WinOffset) : Prop :=
  off.toNat % 8 = 0 ∧
    (off = 0x000 ∨ 0x010 ≤ off.toNat ∧ off.toNat ≤ 0x028 ∨ off = 0x038 ∨ 0x080 ≤ off.toNat ∧ off.toNat ≤ 0x0A0 ∨
      0x0C0 ≤ off.toNat ∧ off.toNat ≤ 0x0D0)

/-- PEND for one candidate (44_run.md R185, R164): nothing where the reversed pattern is smaller, the polynomial once
where it is its own reversal, otherwise the polynomial and then its reversal, all with the same flag and orbit size. -/
def pendingResults {n : Nat} (e G : Word) (m : BitVec (n + 1)) : List Result :=
  let d := Nat.gcd e.toNat G.toNat
  let entry (p : BitVec (n + 1)) : Result := ⟨p.setWidth 65, decide (d = 1), BitVec.ofNat 64 (G.toNat / d)⟩
  if (revN m).toNat < m.toNat then [] else if revN m = m then [entry m] else [entry m, entry (revN m)]

/-- String order on the first n digits, a[1] compared first (40_necklace.md R100). -/
def lexLess (n : Nat) (a b : Word) : Prop :=
  ∃ i, 1 ≤ i ∧ i ≤ n ∧ (∀ j, 1 ≤ j → j < i → digit a j = digit b j) ∧ digit a i = false ∧ digit b i = true

/-- Digit i of the rotation a[k+1..n] a[1..k] (40_necklace.md R100). -/
def rotatedDigit (n k : Nat) (a : Word) (i : Nat) : Bool := if i + k ≤ n then digit a (i + k) else digit a (i + k - n)

/-- Condition (i) of 40_necklace.md R100: every rotation by 1..n-1 is strictly greater. -/
def Lyndon (n : Nat) (a : Word) : Prop :=
  ∀ k, 1 ≤ k → k < n → ∃ i, 1 ≤ i ∧ i ≤ n ∧
    (∀ j, 1 ≤ j → j < i → digit a j = rotatedDigit n k a j) ∧ digit a i = false ∧ rotatedDigit n k a i = true

/-- A string of CAND(n) as a value of NK_A (40_necklace.md R100, R101). -/
def Candidate (n : Nat) (a : Word) : Prop := Lyndon n a ∧ digit a n = true ∧ a >>> n = 0#64

/-- A prenecklace: no part a[k+1..k+i] of the string is smaller than a[1..i]. -/
def Prenecklace (n : Nat) (a : Word) : Prop :=
  ∀ k i, 1 ≤ i → k + i ≤ n → (∀ j, 1 ≤ j → j < i → digit a (k + j) = digit a j) → digit a i = true →
    digit a (k + i) = true

/-- The polynomial over GF(2) of a bit pattern: bit j is the coefficient of x^j (00_scope.md R9). -/
noncomputable def patternPoly {n : Nat} (a : BitVec n) : Polynomial (ZMod 2) :=
  ∑ j ∈ Finset.range n, if a.getLsbD j then Polynomial.X ^ j else 0

/-- P(x) = x^n + R(x) (41_field_arith.md R121). -/
noncomputable def reductionPoly {n : Nat} (R : BitVec n) : Polynomial (ZMod 2) := Polynomial.X ^ n + patternPoly R

/-- The element of GF(2)[x]/(P) a pattern stands for (41_field_arith.md R124). -/
noncomputable def ringElement {n : Nat} (R a : BitVec n) : AdjoinRoot (reductionPoly R) :=
  AdjoinRoot.mk (reductionPoly R) (patternPoly a)

/-- The monic polynomial x^n + sum of F[j]·x^j with coefficients in GF(2)[x]/(P) (42_minpoly.md R141, R142). -/
noncomputable def coefficientPoly {n : Nat} (R : BitVec n) (F : List (BitVec n)) :
    Polynomial (AdjoinRoot (reductionPoly R)) :=
  Polynomial.X ^ n + ∑ j ∈ Finset.range n, Polynomial.C (ringElement R (F.getD j 0#n)) * Polynomial.X ^ j

end Sys2Proof.Machine
end

