-- ==== Sys2Proof/Certificates/Slice0/Obligations.lean ====
section
/-! DEFINITION. The statements for the provers, by the spec's files. Each docstring names the rule it rests on; a clause
that rests on the model's own choice says so and names the log entry. `s.tick` is `s` but for the model's own count of
moves (log 15), which is no state of the machine: "nothing else changes" is said of the machine. -/

open Sys2Proof Sys2Proof.Machine

/-! Encoding and decoding (30_encoding.md) -/

/-- R95: the encoding examples, each way, and the two illegal words. -/
def Obligations.SpecExampleWordsDecode : Prop :=
  (∀ p ∈ [((.mul 2 0 1 : Instr), (0x0000000000010202 : Word)), (.sqr 3 3, 0x0000000000003303),
      (.pow 1 0 2, 0x0000000000020104), (.gen 0, 0x0000000000000005), (.minpe 3 2, 0x0000000000002308),
      (.classify 4 2 3, 0x000000000003240C), (.nknext 0, 0x0000000000000011), (.run, 0x0000000000000018),
      (.nop, 0x0000000000000000)], encode p.1 = p.2 ∧ decode p.2 = .ok p.1) ∧
  decode 0x0000000000080202 = .error .registerRange ∧ decode 0x0000000000100018 = .error .reservedBits

/-- R80, R82, R85: decoding the word of a well-formed command gives that command back, with every operand. -/
def Obligations.DecodeOfEncodeIsTheCommand : Prop :=
  ∀ i : Instr, i.wf = true → decode (encode i) = .ok i

/-- R89, R90: a word that decodes is the one word of its command, and the command is well formed. -/
def Obligations.DecodedWordIsTheEncoding : Prop :=
  ∀ (w : Word) (i : Instr), decode w = .ok i → i.wf = true ∧ encode i = w

/-- R82, R85 to R89, R94 checks (1) to (4): the first check that fails is the one that rejects the word, and a word that
passes them all decodes; then the command reads the degree exactly where the table's column n says so. -/
def Obligations.DecodeChecksInOrder : Prop :=
  ∀ w : Word,
    (decode w = .error .undefinedOp ↔ ∀ c ∈ commandTable, w.extractLsb' 0 8 ≠ c.op) ∧
    ∀ c ∈ commandTable, w.extractLsb' 0 8 = c.op →
      (decode w = .error .reservedBits ↔ w.extractLsb' 20 44 ≠ 0#44) ∧
      (decode w = .error .unusedField ↔ w.extractLsb' 20 44 = 0#44 ∧ ¬ c.unusedZero w) ∧
      (decode w = .error .registerRange ↔
        w.extractLsb' 20 44 = 0#44 ∧ c.unusedZero w ∧ ¬ c.usedInRange w) ∧
      ((∃ i, decode w = .ok i) ↔ w.extractLsb' 20 44 = 0#44 ∧ c.unusedZero w ∧ c.usedInRange w) ∧
      ∀ i, decode w = .ok i → i.opcode = c.op ∧ i.readsDegree = c.readsN

/-- 20_memory.md R63: the byte lanes carry a word without loss, byte 0 being its least significant byte. -/
def Obligations.ByteLanesCarryTheWord : Prop :=
  ∀ w : Word, ofBusBytes (busBytes w) = w ∧ (busBytes w).length = 8 ∧
    ∀ k, k < 8 → ∀ j, j < 8 → ((busBytes w).getD k 0#8).getLsbD j = w.getLsbD (8 * k + j)

/-! The step (20_memory.md, 70_reset_and_hazards.md) -/

/-- R21, R71, R232: a core step with a command in progress whose word decodes to `i` is `exec i`; with no command in progress
it changes nothing. Around `exec` the step only counts a move in the model's own field (`tick`, log 15). The core moves where
the schedule says so and where it lists nothing (the model's log 1), and a word placed by withFetchWord is the next step's
command (the model's log 2). -/
def Obligations.StepRunsTheDecodedCommand : Prop :=
  ∀ (i : Instr) (s : State),
    (s.seq ≠ .idle → decode s.cmd = .ok i →
      step s.coreMoves = exec i s.tick ∧ (s.schedule = [] → step s = exec i s.tick)) ∧
    (s.seq = .idle → step s.coreMoves = .next s.tick) ∧
    ∀ w : Word, decode w = .ok i → step (s.withFetchWord 64 w.toNat) = exec i { s.tick with cmd := w, seq := .accepted }

/-- R213, R86 to R88: a word that fails the decode checks is accepted like any command and its core step records
ILLEGAL_COMMAND, completes and does nothing else, whatever DEGREE holds. -/
def Obligations.IllegalWordIsAcceptedAndOnlyErrs : Prop :=
  ∀ (w : Word) (e : DecodeReject) (s : State), decode w = .error e →
    (s.seq = .idle → step (s.hostWrites 0x030 w) = .next { s.tick with cmd := w, seq := .accepted }) ∧
    (s.seq ≠ .idle → s.cmd = w → step s.coreMoves = .next (s.tick.failedWith ⟨.illegalCommand, w, 0#64⟩))

/-- R64, R214: the machine never stops with a fault, and the model refuses exactly the accesses that are not aligned
64-bit accesses with all lanes. -/
def Obligations.OnlyUnperformedAccessesAreRefused : Prop :=
  ∀ s : State,
    (∃ t, step s = .next t) ∨
    ∃ (acc : Access) (evs : List Event),
      (s.schedule = .host (.read acc) :: evs ∨ ∃ w, s.schedule = .host (.write acc w) :: evs) ∧
      ¬ (acc.width = 8 ∧ acc.off.toNat % 8 = 0 ∧ acc.lanes = 0xFF#8) ∧ step s = .refused (.unperformedAccess acc)

/-! Field arithmetic (41_field_arith.md) -/

/-- R125: bit j of the result is the XOR of bits j of the sources for j < n, and 0 from n on. -/
def Obligations.AddIsXorOnTheLowBits : Prop :=
  ∀ (d a b : RegNum) (s : State), (Instr.add d a b).wf = true →
    decode (commandWord 0x01 d a b) = .ok (.add d a b) ∧
    (s.DegreeLegal → ∃ x : Operand,
      (∀ j, x.getLsbD j = (decide (j < s.degree.toNat) && ((s.getV a).getLsbD j ^^ (s.getV b).getLsbD j))) ∧
      exec (.add d a b) s = .next (s.wrote d x)) ∧
    (¬ s.DegreeLegal → exec (.add d a b) s = .next s.failedDegree)

/-- R126: the product of the low n bits, with the multiplier of R123 (its meaning: MulIsRemainderOfTheProduct). -/
def Obligations.MulWritesTheRingProduct : Prop :=
  ∀ (d a b : RegNum) (s : State), (Instr.mul d a b).wf = true →
    decode (commandWord 0x02 d a b) = .ok (.mul d a b) ∧
    (s.DegreeLegal →
      exec (.mul d a b) s = .next (s.wrote d
        ((gfMul ((s.getV a).setWidth s.degree.toNat) ((s.getV b).setWidth s.degree.toNat)
          (s.reduction.setWidth s.degree.toNat)).setWidth 65))) ∧
    (¬ s.DegreeLegal → exec (.mul d a b) s = .next s.failedDegree)

/-- R127: the square of the low n bits. -/
def Obligations.SqrWritesTheSquare : Prop :=
  ∀ (d a : RegNum) (s : State), (Instr.sqr d a).wf = true →
    decode (commandWord 0x03 d a 0#4) = .ok (.sqr d a) ∧
    (s.DegreeLegal →
      exec (.sqr d a) s = .next (s.wrote d
        ((gfMul ((s.getV a).setWidth s.degree.toNat) ((s.getV a).setWidth s.degree.toNat)
          (s.reduction.setWidth s.degree.toNat)).setWidth 65))) ∧
    (¬ s.DegreeLegal → exec (.sqr d a) s = .next s.failedDegree)

/-- R130: the power of the low n bits of V[a] to the exponent V[b][63:0]. -/
def Obligations.PowWritesTheRingPower : Prop :=
  ∀ (d a b : RegNum) (s : State), (Instr.pow d a b).wf = true →
    decode (commandWord 0x04 d a b) = .ok (.pow d a b) ∧
    (s.DegreeLegal →
      exec (.pow d a b) s = .next (s.wrote d
        ((gfPow ((s.getV a).setWidth s.degree.toNat) ((s.getV b).setWidth 64)
          (s.reduction.setWidth s.degree.toNat)).setWidth 65))) ∧
    (¬ s.DegreeLegal → exec (.pow d a b) s = .next s.failedDegree)

/-- R128: x mod P is 2 for n >= 2 whatever REDUCTION holds, and REDUCTION[0] for n = 1. -/
def Obligations.GenWritesXModP : Prop :=
  ∀ (d : RegNum) (s : State), (Instr.gen d).wf = true →
    decode (commandWord 0x05 d 0#4 0#4) = .ok (.gen d) ∧
    (2 ≤ s.degree.toNat → s.degree.toNat ≤ 64 → exec (.gen d) s = .next (s.wrote d 2#65)) ∧
    (s.degree = 1#7 → exec (.gen d) s = .next (s.wrote d (if s.reduction.getLsbD 0 then 1#65 else 0#65))) ∧
    (¬ s.DegreeLegal → exec (.gen d) s = .next s.failedDegree)

/-- R124: the multiplier computes the remainder of the polynomial product on division by P, for every R. -/
def Obligations.MulIsRemainderOfTheProduct : Prop :=
  ∀ (n : Nat) (a b R : BitVec n), 1 ≤ n →
    patternPoly (gfMul a b R) = (patternPoly a * patternPoly b) %ₘ reductionPoly R

/-- R124: the multiplier is commutative and associative, distributes over XOR, has 1 as identity and 0 as absorbing
element, for every R. -/
def Obligations.MulIsACommutativeRingProduct : Prop :=
  ∀ (n : Nat) (R a b c : BitVec n),
    gfMul a b R = gfMul b a R ∧
    gfMul (gfMul a b R) c R = gfMul a (gfMul b c R) R ∧
    gfMul a (b ^^^ c) R = gfMul a b R ^^^ gfMul a c R ∧
    gfMul a 1#n R = a ∧ gfMul a 0#n R = 0#n

/-- R129, R130: the exponentiator computes a^e in GF(2)[x]/(P) for every R and every 64-bit e; e = 0 gives 1. -/
def Obligations.PowIsTheRingPower : Prop :=
  ∀ (n : Nat) (a R : BitVec n) (e : Word), 1 ≤ n →
    patternPoly (gfPow a e R) = patternPoly a ^ e.toNat %ₘ reductionPoly R ∧ gfPow a 0#64 R = 1#n

/-! Minimal polynomials (42_minpoly.md) -/

/-- R145: with root(e) the power of the generator, V[d] is the collapsed orbit product where it closes; where it does not,
ARITH_INVARIANT is raised with ERR_DATA = e and V[d] is not written. -/
def Obligations.MinpeWritesThePolynomialOrErrs : Prop :=
  ∀ (d a : RegNum) (s : State), (Instr.minpe d a).wf = true →
    decode (commandWord 0x08 d a 0#4) = .ok (.minpe d a) ∧
    (s.DegreeLegal → ∀ (R : BitVec s.degree.toNat) (F : List (BitVec s.degree.toNat)),
      R = s.reduction.setWidth s.degree.toNat →
      F = orbitProduct (gfPow (gfMulx 1#s.degree.toNat R) ((s.getV a).setWidth 64) R) R →
      ((∀ f ∈ F, f = 0#s.degree.toNat ∨ f = 1#s.degree.toNat) →
        exec (.minpe d a) s = .next (s.wrote d ((collapse F).setWidth 65))) ∧
      (¬ (∀ f ∈ F, f = 0#s.degree.toNat ∨ f = 1#s.degree.toNat) →
        exec (.minpe d a) s = .next (s.failedWith ⟨.arithInvariant, s.cmd, (s.getV a).setWidth 64⟩))) ∧
    (¬ s.DegreeLegal → exec (.minpe d a) s = .next s.failedDegree)

/-- R146: the same from the root V[a][n-1:0], with ERR_DATA the root. -/
def Obligations.MinprWritesThePolynomialOrErrs : Prop :=
  ∀ (d a : RegNum) (s : State), (Instr.minpr d a).wf = true →
    decode (commandWord 0x09 d a 0#4) = .ok (.minpr d a) ∧
    (s.DegreeLegal → ∀ (root : BitVec s.degree.toNat) (F : List (BitVec s.degree.toNat)),
      root = (s.getV a).setWidth s.degree.toNat →
      F = orbitProduct root (s.reduction.setWidth s.degree.toNat) →
      ((∀ f ∈ F, f = 0#s.degree.toNat ∨ f = 1#s.degree.toNat) →
        exec (.minpr d a) s = .next (s.wrote d ((collapse F).setWidth 65))) ∧
      (¬ (∀ f ∈ F, f = 0#s.degree.toNat ∨ f = 1#s.degree.toNat) →
        exec (.minpr d a) s = .next (s.failedWith ⟨.arithInvariant, s.cmd, root.setWidth 64⟩))) ∧
    (¬ s.DegreeLegal → exec (.minpr d a) s = .next s.failedDegree)

/-- R141, R142: the coefficient array is that of the product of x + root^(2^i), i = 0..n-1, over GF(2)[x]/(P). -/
def Obligations.OrbitProductIsTheProduct : Prop :=
  ∀ (n : Nat) (root R : BitVec n), 1 ≤ n →
    (orbitProduct root R).length = n ∧
    coefficientPoly R (orbitProduct root R) =
      ∏ i ∈ Finset.range n, (Polynomial.X + Polynomial.C (ringElement R root ^ 2 ^ i))

/-- R144: bit j of the collapsed pattern is set iff F[j] = 1, for j < n, and bit n is set. -/
def Obligations.CollapseSetsTheBits : Prop :=
  ∀ (n : Nat) (F : List (BitVec n)), F.length = n →
    (collapse F).getLsbD n = true ∧ ∀ j, j < n → (collapse F).getLsbD j = decide (F.getD j 0#n = 1#n)

/-- R147: where P is irreducible the orbit closes for every root, so ARITH_INVARIANT never occurs. -/
def Obligations.IrreducibleReductionClosesEveryOrbit : Prop :=
  ∀ (n : Nat) (root R : BitVec n), 1 ≤ n → Irreducible (reductionPoly R) → ∃ m, minPoly root R = some m

/-- R148, in fact for every R: where the check passes, substituting the root into m gives 0. -/
def Obligations.RootIsARootOfItsPolynomial : Prop :=
  ∀ (n : Nat) (root R : BitVec n) (m : BitVec (n + 1)), 1 ≤ n → minPoly root R = some m →
    Polynomial.aeval (ringElement R root) (patternPoly m) = 0

/-! gcd, reciprocal, classification (43_classify.md) -/

/-- R160, R161: the unit computes the greatest common divisor of all 64-bit operands (so its bound of passes is enough,
log 11), gcd64(a, 0) = a and gcd64(0, b) = b; V[d] is the gcd of the low 64 bits of the sources, whatever DEGREE holds. -/
def Obligations.GcdWritesTheGcd : Prop :=
  (∀ a b : Word, (gcd64 a b).toNat = Nat.gcd a.toNat b.toNat ∧ gcd64 a 0#64 = a ∧ gcd64 0#64 b = b) ∧
  ∀ (d a b : RegNum) (s : State), (Instr.gcd d a b).wf = true →
    decode (commandWord 0x0A d a b) = .ok (.gcd d a b) ∧
    exec (.gcd d a b) s = .next (s.wrote d
      (BitVec.ofNat 65 (Nat.gcd ((s.getV a).toNat % 2 ^ 64) ((s.getV b).toNat % 2 ^ 64))))

/-- R162, R163: bit j of rev_n(m) is m[n-j] and rev_n is an involution; bit j of V[d] is V[a][n-j] for j = 0..n, and 0
above. -/
def Obligations.RecipWritesTheReversal : Prop :=
  (∀ (n : Nat) (m : BitVec (n + 1)), (∀ j, j ≤ n → (revN m).getLsbD j = m.getLsbD (n - j)) ∧ revN (revN m) = m) ∧
  ∀ (d a : RegNum) (s : State), (Instr.recip d a).wf = true →
    decode (commandWord 0x0B d a 0#4) = .ok (.recip d a) ∧
    (s.DegreeLegal → ∃ x : Operand,
      (∀ j, x.getLsbD j = (decide (j ≤ s.degree.toNat) && (s.getV a).getLsbD (s.degree.toNat - j))) ∧
      exec (.recip d a) s = .next (s.wrote d x)) ∧
    (¬ s.DegreeLegal → exec (.recip d a) s = .next s.failedDegree)

/-- R164, R165: with d = gcd(e, G), V[d] is G / d (0 for d = 0), P says d = 1, S and R compare m = V[b][n:0] with its
reversal; X is unchanged. -/
def Obligations.ClassWritesOrbitAndFlags : Prop :=
  ∀ (d a b : RegNum) (s : State), (Instr.classify d a b).wf = true →
    decode (commandWord 0x0C d a b) = .ok (.classify d a b) ∧
    (s.DegreeLegal → ∀ (g : Nat) (m : BitVec (s.degree.toNat + 1)),
      g = Nat.gcd ((s.getV a).toNat % 2 ^ 64) s.groupOrder.toNat → m = (s.getV b).setWidth (s.degree.toNat + 1) →
      exec (.classify d a b) s = .next
        { s.wrote d (BitVec.ofNat 65 (s.groupOrder.toNat / g)) with
          flags := ⟨decide (g = 1), decide (revN m = m), decide ((revN m).toNat < m.toNat), s.flags.x⟩ }) ∧
    (¬ s.DegreeLegal → exec (.classify d a b) s = .next s.failedDegree)

/-! The necklace machine (40_necklace.md) -/

/-- R103: nk_step turns the last digit that is 0 into 1, copies the period behind it, and sets NK_P to its position; with
no such digit it sets EXHAUSTED and leaves NK_A and NK_P. -/
def Obligations.NecklaceStepCopiesThePeriod : Prop :=
  ∀ k : Necklace, k.n.toNat ≤ 64 →
    (∀ t, 1 ≤ t → t ≤ k.n.toNat → digit k.a t = false → (∀ j, t < j → j ≤ k.n.toNat → digit k.a j = true) →
      ∃ a' : Word, nkStep k = (⟨a', BitVec.ofNat 7 t, k.n, k.st⟩, true) ∧
        (∀ i, i < t → digit a' i = digit k.a i) ∧ digit a' t = true ∧
        (∀ j, t < j → j ≤ k.n.toNat → digit a' j = digit a' (j - t)) ∧
        (∀ j, k.n.toNat < j → digit a' j = digit k.a j)) ∧
    ((∀ j, 1 ≤ j → j ≤ k.n.toNat → digit k.a j = true) → nkStep k = ({ k with st := .exhausted }, false))

/-- R106, R184: the search is the loop of the rules, without any bound (the model's bound is never met, log 10). -/
def Obligations.NecklaceSearchIsTheLoop : Prop :=
  ∀ k : Necklace, k.n.toNat ≤ 64 →
    nkSeek k = match nkStep k with
      | (k', false) => (k', false)
      | (k', true) => if k'.p = k'.n ∧ digit k'.a k'.n.toNat = true then (k', true) else nkSeek k'

/-- R100, R104: from a prenecklace the search finds the least candidate after it, and the state is a prenecklace again;
where it finds none there is none. NKINIT's state is a prenecklace, so NKNEXT after NKNEXT walks CAND(n) in order. -/
def Obligations.NecklaceSearchFindsTheNextCandidate : Prop :=
  (∀ n : BitVec 7, Prenecklace n.toNat (nkStart n).a) ∧
  ∀ k : Necklace, 1 ≤ k.n.toNat → k.n.toNat ≤ 64 → k.a >>> k.n.toNat = 0#64 → Prenecklace k.n.toNat k.a →
    (∀ k', nkSeek k = (k', true) →
      k'.n = k.n ∧ k'.p = k.n ∧ k'.st = k.st ∧ Prenecklace k.n.toNat k'.a ∧ Candidate k.n.toNat k'.a ∧
      lexLess k.n.toNat k.a k'.a ∧
      ∀ b, Candidate k.n.toNat b → lexLess k.n.toNat k.a b → b = k'.a ∨ lexLess k.n.toNat k'.a b) ∧
    (∀ k', nkSeek k = (k', false) →
      k'.n = k.n ∧ k'.st = .exhausted ∧ ∀ b, Candidate k.n.toNat b → ¬ lexLess k.n.toNat k.a b)

/-- R107: CAND(1) is the string "1"; for n >= 2 a candidate lies in 2^(n-1)..2^n - 2. -/
def Obligations.CandidateRange : Prop :=
  (∀ a : Word, Candidate 1 a ↔ a = 1#64) ∧
  ∀ (n : Nat) (a : Word), 2 ≤ n → n ≤ 64 → Candidate n a → 2 ^ (n - 1) ≤ a.toNat ∧ a.toNat ≤ 2 ^ n - 2

/-- R105: NKINIT latches the degree, clears the digits, sets NK_P = 1 and ACTIVE, clears X and nothing else. -/
def Obligations.NkinitStartsTheGenerator : Prop :=
  decode 0x10#64 = .ok .nkinit ∧ ∀ s : State,
    (s.DegreeLegal → exec .nkinit s = .next
      { s with nk := ⟨0#64, 1#7, s.degree, .active⟩, flags := { s.flags with x := false }, seq := .idle, cmdDone := true }) ∧
    (¬ s.DegreeLegal → exec .nkinit s = .next s.failedDegree)

/-- R106: not ACTIVE: X is set and nothing else changes. ACTIVE: with a candidate found, V[d] is NK_A and X is cleared;
with none, X is set and V[d] is unchanged. DEGREE is not read. -/
def Obligations.NknextYieldsOrSetsX : Prop :=
  ∀ (d : RegNum) (s : State), (Instr.nknext d).wf = true →
    decode (commandWord 0x11 d 0#4 0#4) = .ok (.nknext d) ∧
    (s.nk.st ≠ .active → exec (.nknext d) s = .next
      { s with flags := { s.flags with x := true }, seq := .idle, cmdDone := true }) ∧
    (s.nk.st = .active → ∀ k, nkSeek s.nk = (k, true) → exec (.nknext d) s = .next
      { s.wrote d (k.a.setWidth 65) with nk := k, flags := { s.flags with x := false } }) ∧
    (s.nk.st = .active → ∀ k, nkSeek s.nk = (k, false) → exec (.nknext d) s = .next
      { s with nk := k, flags := { s.flags with x := true }, seq := .idle, cmdDone := true })

/-! NOP and RUN (44_run.md) -/

/-- R180: NOP completes and changes nothing else, whatever DEGREE holds. -/
def Obligations.NopOnlyCompletes : Prop :=
  decode 0x0#64 = .ok .nop ∧ ∀ s : State, exec .nop s = .next { s with seq := .idle, cmdDone := true }

/-- R181, R182: the first core step of RUN checks the degree before any effect and initialises. -/
def Obligations.RunInitialises : Prop :=
  decode 0x18#64 = .ok .run ∧ ∀ s : State, s.seq ≠ .runLoop →
    (s.DegreeLegal → exec .run s = .next
      { s with
        nk := ⟨0#64, 1#7, s.degree, .active⟩, irrCount := 0#64, primCount := 0#64, emitCount := 0#64,
        done := false, aborted := false, fifo := [], pend := [], seq := .runLoop }) ∧
    (¬ s.DegreeLegal → exec .run s = .next s.failedDegree)

/-- R183, R184, R185, R191: the step with PEND empty. DONE = 1 or EXHAUSTED: the final step, completion and nothing else.
Otherwise a candidate step: where the search is exhausted only the necklace state moves; a candidate e whose orbit closes
puts its results in PEND; one whose orbit does not close ends the run with ARITH_INVARIANT and ERR_DATA = e. -/
def Obligations.RunStepWithNothingPending : Prop :=
  ∀ s : State, s.seq = .runLoop → s.pend = [] →
    ((s.done = true ∨ s.nk.st = .exhausted) → exec .run s = .next { s with seq := .idle, cmdDone := true }) ∧
    (s.done = false → s.nk.st ≠ .exhausted →
      (∀ k, nkSeek s.nk = (k, false) → exec .run s = .next { s with nk := k }) ∧
      (∀ k, nkSeek s.nk = (k, true) → ∀ R : BitVec k.n.toNat, R = s.reduction.setWidth k.n.toNat →
        (∀ m, minPoly (gfPow (gfMulx 1#k.n.toNat R) k.a R) R = some m →
          exec .run s = .next { s with nk := k, pend := pendingResults k.a s.groupOrder m }) ∧
        (minPoly (gfPow (gfMulx 1#k.n.toNat R) k.a R) R = none →
          exec .run s = .next { s.failedWith ⟨.arithInvariant, s.cmd, k.a⟩ with nk := k })))

/-- R186, R188: a result step that is enabled counts the head of PEND, pushes it where the mode says so, and sets DONE
when EMIT_COUNT reaches a nonzero CEILING; with DONE set it discards PEND uncounted; one that would push into a full FIFO
is no step: the state stays as it is. -/
def Obligations.RunResultStep : Prop :=
  ∀ (s : State) (r : Result) (rest : List Result), s.seq = .runLoop → s.pend = r :: rest →
    (s.done = true → exec .run s = .next { s with pend := [] }) ∧
    (s.done = false → (s.primOnly = false ∨ r.prim = true) → s.fifo.length < s.fifoDepth.toNat →
      exec .run s = .next
        { s with
          irrCount := s.irrCount + 1#64, primCount := if r.prim then s.primCount + 1#64 else s.primCount,
          fifo := s.fifo ++ [r], emitCount := s.emitCount + 1#64,
          done := decide (s.ceiling ≠ 0#64 ∧ s.emitCount + 1#64 = s.ceiling), pend := rest }) ∧
    (s.done = false → (s.primOnly = false ∨ r.prim = true) → s.fifoDepth.toNat ≤ s.fifo.length →
      exec .run s = .next s) ∧
    (s.done = false → s.primOnly = true → r.prim = false →
      exec .run s = .next { s with irrCount := s.irrCount + 1#64, pend := rest })

/-- R189: a result that would be pushed into a full FIFO holds RUN: the step changes nothing, and STATUS.STALL reads 1;
STALL reads 1 in no other state. -/
def Obligations.RunHeldByFullFifo : Prop :=
  ∀ s : State,
    (∀ r rest, s.seq = .runLoop → s.pend = r :: rest → s.done = false → (s.primOnly = false ∨ r.prim = true) →
      s.fifoDepth.toNat ≤ s.fifo.length → exec .run s = .next s ∧ (s.view .status).getLsbD 6 = true) ∧
    ((s.view .status).getLsbD 6 = true → s.seq = .runLoop ∧ s.done = false ∧ s.fifoDepth.toNat ≤ s.fifo.length ∧
      ∃ r rest, s.pend = r :: rest ∧ (s.primOnly = false ∨ r.prim = true))

/-- R254, R187: with CEILING from 1 to FIFO_DEPTH a RUN never holds: every step keeps the bound, and the bound excludes a
hold. -/
def Obligations.CeilingWithinDepthNeverHolds : Prop :=
  (∀ s t : State, s.CeilingSafe → step s = .next t → t.CeilingSafe) ∧
  ∀ s : State, s.CeilingSafe → s.ceiling ≠ 0#64 → s.ceiling.toNat ≤ s.fifoDepth.toNat →
    (s.view .status).getLsbD 6 = false

/-- R41, R43, R182, R193: one step changes the FIFO only by a push behind its last entry while it is not full, by removing
its head, or by emptying it. -/
def Obligations.FifoChangesOnlyByPushPopOrClear : Prop :=
  ∀ s t : State, step s = .next t →
    t.fifo = s.fifo ∨ (∃ r, t.fifo = s.fifo ++ [r] ∧ s.fifo.length < s.fifoDepth.toNat) ∨
    t.fifo = s.fifo.tail ∨ t.fifo = []

/-! Errors, interrupt, control (60_exceptions.md, 10_state.md) -/

/-- R214, R210: the first error is recorded with its cause, information and data and sets STATUS.ERR; a later one, while a
record is kept, leaves no record; nothing else changes. ERR_CAUSE, ERR_INFO and ERR_DATA show the record, 0 with none. -/
def Obligations.FirstErrorIsKept : Prop :=
  ∀ (s : State) (c : ErrCause) (info data : Word),
    (s.errRec = none → s.raiseError c info data = { s with errRec := some ⟨c, info, data⟩ } ∧
      s.view .errCause = 0#64 ∧ s.view .errInfo = 0#64 ∧ s.view .errData = 0#64) ∧
    (s.errRec ≠ none → s.raiseError c info data = s) ∧
    ((s.raiseError c info data).view .status).getLsbD 3 = true ∧
    (s.errRec = some ⟨c, info, data⟩ →
      s.view .errInfo = info ∧ s.view .errData = data ∧
      s.view .errCause = match c with
        | .invalidDegree => 1#64
        | .arithInvariant => 2#64
        | .illegalCommand => 3#64
        | .cmdWhileBusy => 4#64
        | .writeWhileBusy => 5#64)

/-- R72, R216: a write of CMD while idle is accepted in its own step; while busy it is lost and raises CMD_WHILE_BUSY with
the offset and the rejected word, and nothing else changes. -/
def Obligations.CmdWriteIsAcceptedOrRejected : Prop :=
  ∀ (s : State) (w : Word),
    (s.seq = .idle → step (s.hostWrites 0x030 w) = .next { s.tick with cmd := w, seq := .accepted }) ∧
    (s.seq ≠ .idle → step (s.hostWrites 0x030 w) = .next { s.tick with errRec := s.recorded ⟨.cmdWhileBusy, 0x030#64, w⟩ })

/-- R46, R217: a write of a locked register while busy is not performed and raises WRITE_WHILE_BUSY with the offset and the
data, and nothing else changes. -/
def Obligations.LockedWriteWhileBusyOnlyErrs : Prop :=
  ∀ (s : State) (off : WinOffset) (w : Word), s.seq ≠ .idle → LockedOffset off →
    step (s.hostWrites off w) = .next { s.tick with errRec := s.recorded ⟨.writeWhileBusy, off.setWidth 64, w⟩ }

/-- R220, R190, R23: a write of CTRL with SRST = 0 acts by its bits, at any time: ABORT acts only where RUNNING = 1, setting
ABORTED if DONE is 0 and then DONE; CLRERR clears the record; both may act together; nothing else changes. CTRL reads 0.
(SRST = 1: ResetLeavesTheResetState.) -/
def Obligations.CtrlWriteActsByItsBits : Prop :=
  ∀ (s : State) (w : Word) (run : Bool), run = (s.view .status).getLsbD 7 →
    (w.getLsbD 1 = false → step (s.hostWrites 0x008 w) = .next
      { s.tick with
        aborted := s.aborted || (w.getLsbD 0 && run && !s.done), done := s.done || (w.getLsbD 0 && run),
        errRec := if w.getLsbD 2 then none else s.errRec }) ∧
    step (s.hostReads 0x008) = .next { s with rdata := 0#64 }

/-- R242, R241, R47: a write of CTRL with SRST = 1, whatever its other bits, at any time, and the reset input leave the
reset state; ID's FIFO_DEPTH is unchanged and the model's own fields stay (log 16). -/
def Obligations.ResetLeavesTheResetState : Prop :=
  ∀ (s : State) (w : Word) (t : State),
    t = { State.reset with
            fifoDepth := s.fifoDepth, schedule := s.schedule, rdata := s.rdata, draws := s.draws,
            moves := s.moves + 1 } →
    (w.getLsbD 1 = true → step (s.hostWrites 0x008 w) = .next t) ∧
    step { s with schedule := .rst :: s.schedule } = .next t

/-- R47, R22: after reset every register reads 0 but ID, the FIFO, PEND and the operand registers are empty or 0, the
necklace state is IDLE, and irq is deasserted. -/
def Obligations.ResetValues : Prop :=
  (∀ r : WinReg, r ≠ .id → State.reset.view r = 0#64) ∧
  State.reset.view .id = Config.fifoDepth ++ 0x084047460007#48 ∧ State.reset.fifo = [] ∧ State.reset.pend = [] ∧
  State.reset.seq = .idle ∧ State.reset.nk.st = .idle ∧ State.reset.irq = false ∧
  ∀ r : RegNum, State.reset.getV r = 0#65

/-- R22: ID's fields; and no step changes ID, whose FIFO_DEPTH is 1..65535 after reset (R8). -/
def Obligations.IdIsConstant : Prop :=
  (∀ s : State, (s.view .id).extractLsb' 0 16 = 0x0007#16 ∧ (s.view .id).extractLsb' 16 16 = 0x4746#16 ∧
    (s.view .id).extractLsb' 32 8 = 0x40#8 ∧ (s.view .id).extractLsb' 40 8 = 0x08#8 ∧
    (s.view .id).extractLsb' 48 16 = s.fifoDepth) ∧
  State.reset.fifoDepth ≠ 0#16 ∧ ∀ s t : State, step s = .next t → t.view .id = s.view .id

/-- R24: the bits of STATUS. -/
def Obligations.StatusBits : Prop :=
  ∀ (s : State) (w : Word), w = s.view .status →
    w.getLsbD 0 = decide (s.seq ≠ .idle) ∧ w.getLsbD 1 = s.done ∧ w.getLsbD 2 = s.aborted ∧
    w.getLsbD 3 = s.errRec.isSome ∧ w.getLsbD 4 = decide (s.fifo ≠ []) ∧
    w.getLsbD 5 = decide (s.fifoDepth.toNat ≤ s.fifo.length) ∧
    (w.getLsbD 7 = true ↔ s.seq = .runLoop ∨ s.seq = .accepted ∧ s.cmd = 0x18#64) ∧
    w.extractLsb' 8 8 = 0#8 ∧ w.extractLsb' 16 16 = BitVec.ofNat 16 s.fifo.length ∧ w.extractLsb' 32 32 = 0#32

/-- R221: the interrupt output is the OR of the three enabled conditions. -/
def Obligations.IrqIsTheEnabledConditions : Prop :=
  ∀ s : State, s.irq = true ↔
    s.cmdDone = true ∧ (s.view .irqEn).getLsbD 0 = true ∨
    (s.view .status).getLsbD 3 = true ∧ (s.view .irqEn).getLsbD 1 = true ∨
    (s.view .status).getLsbD 4 = true ∧ (s.view .irqEn).getLsbD 2 = true

/-- R43: any write of RES_POP removes the head entry if there is one and otherwise has no effect; it raises no error,
busy or not; RES_POP reads 0. -/
def Obligations.ResPopRemovesTheHead : Prop :=
  ∀ (s : State) (w : Word),
    (∀ r rest, s.fifo = r :: rest → step (s.hostWrites 0x0D8 w) = .next { s.tick with fifo := rest }) ∧
    (s.fifo = [] → step (s.hostWrites 0x0D8 w) = .next s.tick) ∧
    step (s.hostReads 0x0D8) = .next { s with rdata := 0#64 }

/-- R42: what the three head words show; reading them returns that and does not pop. -/
def Obligations.HeadWordsShowTheOldestResult : Prop :=
  ∀ s : State,
    step (s.hostReads 0x0C0) = .next { s with rdata := s.view .resPolyLo } ∧
    step (s.hostReads 0x0C8) = .next { s with rdata := s.view .resInfo } ∧
    step (s.hostReads 0x0D0) = .next { s with rdata := s.view .resOrbit } ∧
    (s.fifo = [] → s.view .resPolyLo = 0#64 ∧ s.view .resInfo = 0#64 ∧ s.view .resOrbit = 0#64) ∧
    ∀ r rest, s.fifo = r :: rest →
      s.view .resPolyLo = r.poly.setWidth 64 ∧ s.view .resOrbit = r.orbit ∧
      (s.view .resInfo).getLsbD 0 = r.poly.getLsbD 64 ∧ (s.view .resInfo).getLsbD 8 = r.prim ∧
      (s.view .resInfo).getLsbD 63 = true ∧ (s.view .resInfo).extractLsb' 1 7 = 0#7 ∧
      (s.view .resInfo).extractLsb' 9 54 = 0#54

/-! The window (20_memory.md, 10_state.md) -/

/-- R65, R46, R218: a reserved offset reads 0 and ignores writes, with no error and no other effect; a write of a read-only
register is ignored at all times, with no error. -/
def Obligations.ReservedAndReadOnlyIgnoreWrites : Prop :=
  ∀ (s : State) (off : WinOffset) (w : Word),
    (ReservedOffset off → step (s.hostReads off) = .next { s with rdata := 0#64 }) ∧
    (ReservedOffset off ∨ ReadOnlyOffset off → step (s.hostWrites off w) = .next s.tick)

/-- R29, R40: what FLAGS and the two necklace words show. -/
def Obligations.FlagsAndNecklaceWords : Prop :=
  ∀ s : State,
    (∀ w, w = s.view .flags → w.getLsbD 0 = s.flags.p ∧ w.getLsbD 1 = s.flags.s ∧ w.getLsbD 2 = s.flags.r ∧
      w.getLsbD 3 = s.flags.x ∧ w.extractLsb' 4 60 = 0#60) ∧
    s.view .nkA = s.nk.a ∧
    (∀ w, w = s.view .nkCtl → w.extractLsb' 0 7 = s.nk.p ∧ w.getLsbD 7 = false ∧ w.extractLsb' 8 7 = s.nk.n ∧
      w.getLsbD 15 = false ∧ w.extractLsb' 18 46 = 0#46 ∧
      w.extractLsb' 16 2 = match s.nk.st with
        | .idle => 0#2
        | .active => 1#2
        | .exhausted => 2#2)

/-- R66, R61: a read changes no state of the machine: only the value the host has got and the model's count of draws
differ. Where the read is no free choice (R69, R194) the value is what the register holds, and `State.shown` and the clauses
after it say offset by offset which one that is. Read twice with only reads between (so that only the value got, the count
of draws and the schedule differ), every offset but NK_A and NK_CTL (R194) gives the same value, busy or not; those two do
while RUNNING = 0. -/
def Obligations.ReadsChangeNothing : Prop :=
  ∀ s : State,
    (∀ off : WinOffset, off.toNat % 8 = 0 → ∃ (x : Word) (m : Nat),
      step (s.hostReads off) = .next { s with rdata := x, draws := m } ∧
      ((s.seq = .idle ∨ (off.toNat < 0x100 ∧ off ≠ 0x098 ∧ off ≠ 0x0A0) ∨
          ((off = 0x098 ∨ off = 0x0A0) ∧ (s.view .status).getLsbD 7 = false)) →
        x = s.view (winRegAt off) ∧ m = s.draws)) ∧
    (∀ p ∈ s.shown, step (s.hostReads p.1) = .next { s with rdata := p.2 }) ∧
    ((s.view .status).getLsbD 7 = false →
      step (s.hostReads 0x098) = .next { s with rdata := s.nk.a } ∧
      step (s.hostReads 0x0A0) = .next { s with rdata := s.view .nkCtl }) ∧
    (s.seq = .idle → ∀ k : Fin 8,
      step (s.hostReads (BitVec.ofNat 9 (0x100 + 0x10 * k.val))) = .next { s with rdata := s.v[k].setWidth 64 } ∧
      step (s.hostReads (BitVec.ofNat 9 (0x108 + 0x10 * k.val))) =
        .next { s with rdata := (s.v[k].extractLsb' 64 1).setWidth 64 }) ∧
    ∀ (off : WinOffset) (x : Word) (m : Nat) (evs : List Event) (u : State),
      off.toNat % 8 = 0 → off ≠ 0x098 → off ≠ 0x0A0 → u = { s with rdata := x, draws := m, schedule := evs } →
      ∃ y : Word, step (s.hostReads off) = .next { s with rdata := y } ∧
        step (u.hostReads off) = .next { u with rdata := y }

/-- R69, R39 (log 5): a word of Vk read at any time is its present value or the value the next core step gives it, for
every way the free values fall; the read changes nothing else. -/
def Obligations.BusyOperandReadIsOldOrNew : Prop :=
  ∀ (s : State) (k : Fin 8),
    (∃ x : Word, step (s.hostReads (BitVec.ofNat 9 (0x100 + 0x10 * k.val))) = .next { s with rdata := x } ∧
      (x = s.v[k].setWidth 64 ∨ ∃ t, step s.coreMoves = .next t ∧ x = t.v[k].setWidth 64)) ∧
    ∃ x : Word, step (s.hostReads (BitVec.ofNat 9 (0x108 + 0x10 * k.val))) = .next { s with rdata := x } ∧
      (x = (s.v[k].extractLsb' 64 1).setWidth 64 ∨
        ∃ t, step s.coreMoves = .next t ∧ x = (t.v[k].extractLsb' 64 1).setWidth 64)

/-- R30 to R35, R39, R61: a write of a configuration or operand register while idle, and of IRQ_EN at any time, stores the
data's defined bits in that register and changes nothing else; Vk is the register the commands read as number k. Seen
through the window: the written word is read back with the reserved bits 0, every other register reads as before. -/
def Obligations.WritesReadBackAndChangeNoOther : Prop :=
  (∀ (s : State) (w : Word), s.seq = .idle →
    step (s.hostWrites 0x050 w) = .next { s.tick with degree := w.extractLsb' 0 7 } ∧
    step (s.hostWrites 0x058 w) = .next { s.tick with reduction := s.reduction.extractLsb' 64 1 ++ w } ∧
    step (s.hostWrites 0x060 w) =
      .next { s.tick with reduction := w.extractLsb' 0 1 ++ s.reduction.extractLsb' 0 64 } ∧
    step (s.hostWrites 0x068 w) = .next { s.tick with groupOrder := w } ∧
    step (s.hostWrites 0x070 w) = .next { s.tick with ceiling := w } ∧
    step (s.hostWrites 0x078 w) = .next { s.tick with primOnly := w.getLsbD 0 } ∧
    ∀ k : Fin 8,
      step (s.hostWrites (BitVec.ofNat 9 (0x100 + 0x10 * k.val)) w) =
        .next { s.tick with v := s.v.set k.val (s.v[k].extractLsb' 64 1 ++ w) k.isLt } ∧
      step (s.hostWrites (BitVec.ofNat 9 (0x108 + 0x10 * k.val)) w) =
        .next { s.tick with v := s.v.set k.val (w.extractLsb' 0 1 ++ s.v[k].extractLsb' 0 64) k.isLt }) ∧
  (∀ (s : State) (w : Word), step (s.hostWrites 0x040 w) = .next { s.tick with irqEn := w.extractLsb' 0 3 }) ∧
  (∀ (s : State) (k : Fin 8), s.getV (BitVec.ofNat 4 k.val) = s.v[k]) ∧
  ∀ (s : State) (off : WinOffset) (w : Word),
    (s.seq = .idle ∧ LockedOffset off ∨ off = 0x040) → ∃ t, step (s.hostWrites off w) = .next t ∧
      (∀ r, r ≠ winRegAt off → t.view r = s.view r) ∧
      t.view (winRegAt off) = w &&& (match winRegAt off with
        | .irqEn => 0x7#64
        | .degree => 0x7F#64
        | .redHi | .mode | .vHi _ => 0x1#64
        | _ => 0xFFFFFFFFFFFFFFFF#64)

/-- R36: a write of IRQ_STATUS clears CMDDONE where bit 0 is 1 and does nothing else. -/
def Obligations.IrqStatusIsWriteOneToClear : Prop :=
  ∀ (s : State) (w : Word),
    step (s.hostWrites 0x048 w) = .next { s.tick with cmdDone := s.cmdDone && !w.getLsbD 0 }

/-! Rules about the whole machine -/

/-- R48: which commands write which state, in every form and whether or not they fail. -/
def Obligations.CommandsWriteOnlyTheirState : Prop :=
  ∀ (i : Instr) (s t : State), exec i s = .next t →
    (∀ r : RegNum, r ≠ i.rd → t.getV r = s.getV r) ∧
    ((i = .nop ∨ i = .nkinit ∨ i = .run) → t.v = s.v) ∧
    ((∀ d a b, i ≠ .classify d a b) → t.flags.p = s.flags.p ∧ t.flags.s = s.flags.s ∧ t.flags.r = s.flags.r) ∧
    (i ≠ .nkinit → (∀ d, i ≠ .nknext d) → t.flags.x = s.flags.x) ∧
    (i ≠ .nkinit → (∀ d, i ≠ .nknext d) → i ≠ .run → t.nk = s.nk) ∧
    (i ≠ .run → t.irrCount = s.irrCount ∧ t.primCount = s.primCount ∧ t.emitCount = s.emitCount ∧ t.fifo = s.fifo ∧
      t.done = s.done ∧ t.aborted = s.aborted ∧ t.pend = s.pend ∧ t.seq = .idle) ∧
    t.cmd = s.cmd ∧ t.degree = s.degree ∧ t.reduction = s.reduction ∧ t.groupOrder = s.groupOrder ∧
    t.ceiling = s.ceiling ∧ t.primOnly = s.primOnly ∧ t.irqEn = s.irqEn ∧ t.fifoDepth = s.fifoDepth ∧
    t.schedule = s.schedule ∧ t.rdata = s.rdata ∧ t.draws = s.draws ∧ t.moves = s.moves ∧ (t.seq = .idle → t.cmdDone = true)

/-- R46, R181, R253: while a command is in progress no event but a reset changes DEGREE, REDUCTION, GROUP_ORDER, CEILING,
MODE or CMD, and no host transaction but a reset changes an operand register. -/
def Obligations.BusyLocksConfiguration : Prop :=
  ∀ (s t : State) (ev : Event) (evs : List Event), s.seq ≠ .idle → s.schedule = ev :: evs → ¬ ev.resets →
    step s = .next t →
    t.degree = s.degree ∧ t.reduction = s.reduction ∧ t.groupOrder = s.groupOrder ∧ t.ceiling = s.ceiling ∧
    t.primOnly = s.primOnly ∧ t.cmd = s.cmd ∧ (ev ≠ .core → t.v = s.v)

/-- The invariant holds after reset. -/
def Obligations.InvariantAfterReset : Prop := State.reset.Inv

/-- Every step keeps the invariant: the FIFO within FIFO_DEPTH (R41), PEND at most two results and only in RUN (R44), RUN's
word and latched degree (R181), ABORTED only with DONE (R24), a legal necklace state (R40). -/
def Obligations.StepKeepsTheInvariant : Prop :=
  ∀ s t : State, s.Inv → step s = .next t → t.Inv

/-- R210: a record always says what its cause's row says, in every state any step reaches from one where it does. The
offset of WRITE_WHILE_BUSY is one of the locked registers of R46. -/
def Obligations.StepKeepsErrorRecordsLegal : Prop :=
  ∀ s t : State, (∀ r, s.errRec = some r → r.Legal) → step s = .next t → ∀ r, t.errRec = some r → r.Legal
end

