-- ==== Sys2Proof/Laws/Decode.lean ====
section
/-! SUPPORT. What the command word's fields are, and that the opcode map and the encoder's tables agree. -/

namespace Sys2Proof

/-- A joined word as a number: the low part is the right operand. -/
theorem toNat_join {m n : Nat} (x : BitVec m) (y : BitVec n) : (x ++ y).toNat = x.toNat * 2 ^ n + y.toNat := by
  rw [BitVec.toNat_append, ← Nat.shiftLeft_add_eq_or_of_lt y.isLt, Nat.shiftLeft_eq]

/-- The command word of 30_encoding.md R80 as a number. -/
theorem joined_toNat (z : BitVec 44) (b a d : RegNum) (o : BitVec 8) :
    (z ++ b ++ a ++ d ++ o : Word).toNat
      = (((z.toNat * 2 ^ 4 + b.toNat) * 2 ^ 4 + a.toNat) * 2 ^ 4 + d.toNat) * 2 ^ 8 + o.toNat := by
  rw [toNat_join, toNat_join, toNat_join, toNat_join]

/-- Joining five fields and taking them apart again. -/
theorem joined_fields (z : BitVec 44) (b a d : RegNum) (o : BitVec 8) :
    opField (z ++ b ++ a ++ d ++ o) = o ∧ rdField (z ++ b ++ a ++ d ++ o) = d ∧ raField (z ++ b ++ a ++ d ++ o) = a ∧
    rbField (z ++ b ++ a ++ d ++ o) = b ∧ rsvField (z ++ b ++ a ++ d ++ o) = z := by
  have hz := z.isLt; have hb := b.isLt; have ha := a.isLt; have hd := d.isLt; have ho := o.isLt
  refine ⟨?_, ?_, ?_, ?_, ?_⟩ <;> apply BitVec.eq_of_toNat_eq <;>
  · simp only [opField, rdField, raField, rbField, rsvField, BitVec.extractLsb'_toNat, joined_toNat,
      Nat.shiftRight_eq_div_pow]
    omega

/-- A word is its five fields joined. -/
theorem fields_join (w : Word) : rsvField w ++ rbField w ++ raField w ++ rdField w ++ opField w = w := by
  apply BitVec.eq_of_toNat_eq
  refine (joined_toNat _ _ _ _ _).trans ?_
  have := w.isLt
  simp only [opField, rdField, raField, rbField, rsvField, BitVec.extractLsb'_toNat, Nat.shiftRight_eq_div_pow]
  omega

/-- The fields of an encoded command. -/
theorem encode_fields (i : Instr) :
    opField (encode i) = i.opcode ∧ rdField (encode i) = i.rd ∧ raField (encode i) = i.ra ∧
    rbField (encode i) = i.rb ∧ rsvField (encode i) = 0#44 := joined_fields 0#44 i.rb i.ra i.rd i.opcode

/-- The opcode map sends an opcode to a command of that opcode. -/
theorem instrOfOp_opcode {op : BitVec 8} {d a b : RegNum} {i : Instr} (h : instrOfOp op d a b = some i) :
    i.opcode = op := by
  unfold instrOfOp at h; split at h <;> simp_all [Instr.opcode] <;> subst h <;> rfl

/-- The opcode map sends a command's opcode and fields back to the command. -/
theorem instrOfOp_fields (i : Instr) : instrOfOp i.opcode i.rd i.ra i.rb = some i := by cases i <;> rfl

/-- Whether an opcode is defined does not depend on the register fields. -/
theorem instrOfOp_isSome (op : BitVec 8) (d a b : RegNum) :
    (instrOfOp op d a b).isSome = (instrOfOp op 0 0 0).isSome := by
  unfold instrOfOp; split <;> rfl

/-- What a successful decode says of the word. -/
theorem decode_ok {w : Word} {i : Instr} (h : decode w = .ok i) :
    instrOfOp (opField w) (rdField w) (raField w) (rbField w) = some i ∧ rsvField w = 0#44 ∧
    rdField w = i.rd ∧ raField w = i.ra ∧ rbField w = i.rb ∧ i.wf = true := by
  unfold decode at h
  split at h <;> try contradiction
  rename_i j hj
  split_ifs at h
  rename_i h1 h2 h3
  cases h
  push Not at h1 h2
  exact ⟨hj, h1, h2.1, h2.2.1, h2.2.2, h3⟩

/-- A word that decodes to RUN is RUN's word, and the other way round. -/
theorem isRunWord_iff (w : Word) : isRunWord w = true ↔ decode w = .ok .run := by
  unfold isRunWord
  split <;> simp_all

end Sys2Proof
end

