-- ==== Sys2Proof/Laws/State.lean ====
section
/-! SUPPORT. One lemma per field per named update of State, and the value of each updated field. -/

namespace Sys2Proof.Machine

open Sys2Proof

variable (s : State)

/-! `setV` -/

@[simp] theorem State.setV_fifoDepth (r : RegNum) (x : Operand) : (s.setV r x).fifoDepth = s.fifoDepth := rfl
@[simp] theorem State.setV_done (r : RegNum) (x : Operand) : (s.setV r x).done = s.done := rfl
@[simp] theorem State.setV_aborted (r : RegNum) (x : Operand) : (s.setV r x).aborted = s.aborted := rfl
@[simp] theorem State.setV_errRec (r : RegNum) (x : Operand) : (s.setV r x).errRec = s.errRec := rfl
@[simp] theorem State.setV_cmd (r : RegNum) (x : Operand) : (s.setV r x).cmd = s.cmd := rfl
@[simp] theorem State.setV_flags (r : RegNum) (x : Operand) : (s.setV r x).flags = s.flags := rfl
@[simp] theorem State.setV_irqEn (r : RegNum) (x : Operand) : (s.setV r x).irqEn = s.irqEn := rfl
@[simp] theorem State.setV_cmdDone (r : RegNum) (x : Operand) : (s.setV r x).cmdDone = s.cmdDone := rfl
@[simp] theorem State.setV_degree (r : RegNum) (x : Operand) : (s.setV r x).degree = s.degree := rfl
@[simp] theorem State.setV_reduction (r : RegNum) (x : Operand) : (s.setV r x).reduction = s.reduction := rfl
@[simp] theorem State.setV_groupOrder (r : RegNum) (x : Operand) : (s.setV r x).groupOrder = s.groupOrder := rfl
@[simp] theorem State.setV_ceiling (r : RegNum) (x : Operand) : (s.setV r x).ceiling = s.ceiling := rfl
@[simp] theorem State.setV_primOnly (r : RegNum) (x : Operand) : (s.setV r x).primOnly = s.primOnly := rfl
@[simp] theorem State.setV_irrCount (r : RegNum) (x : Operand) : (s.setV r x).irrCount = s.irrCount := rfl
@[simp] theorem State.setV_primCount (r : RegNum) (x : Operand) : (s.setV r x).primCount = s.primCount := rfl
@[simp] theorem State.setV_emitCount (r : RegNum) (x : Operand) : (s.setV r x).emitCount = s.emitCount := rfl
@[simp] theorem State.setV_v (r : RegNum) (x : Operand) : (s.setV r x).v = s.v.setIfInBounds r.toNat x := rfl
@[simp] theorem State.setV_nk (r : RegNum) (x : Operand) : (s.setV r x).nk = s.nk := rfl
@[simp] theorem State.setV_fifo (r : RegNum) (x : Operand) : (s.setV r x).fifo = s.fifo := rfl
@[simp] theorem State.setV_seq (r : RegNum) (x : Operand) : (s.setV r x).seq = s.seq := rfl
@[simp] theorem State.setV_pend (r : RegNum) (x : Operand) : (s.setV r x).pend = s.pend := rfl
@[simp] theorem State.setV_schedule (r : RegNum) (x : Operand) : (s.setV r x).schedule = s.schedule := rfl
@[simp] theorem State.setV_rdata (r : RegNum) (x : Operand) : (s.setV r x).rdata = s.rdata := rfl
@[simp] theorem State.setV_draws (r : RegNum) (x : Operand) : (s.setV r x).draws = s.draws := rfl
@[simp] theorem State.setV_moves (r : RegNum) (x : Operand) : (s.setV r x).moves = s.moves := rfl

/-! `accept` -/

@[simp] theorem State.accept_fifoDepth (w : Word) : (s.accept w).fifoDepth = s.fifoDepth := rfl
@[simp] theorem State.accept_done (w : Word) : (s.accept w).done = s.done := rfl
@[simp] theorem State.accept_aborted (w : Word) : (s.accept w).aborted = s.aborted := rfl
@[simp] theorem State.accept_errRec (w : Word) : (s.accept w).errRec = s.errRec := rfl
@[simp] theorem State.accept_cmd (w : Word) : (s.accept w).cmd = w := rfl
@[simp] theorem State.accept_flags (w : Word) : (s.accept w).flags = s.flags := rfl
@[simp] theorem State.accept_irqEn (w : Word) : (s.accept w).irqEn = s.irqEn := rfl
@[simp] theorem State.accept_cmdDone (w : Word) : (s.accept w).cmdDone = s.cmdDone := rfl
@[simp] theorem State.accept_degree (w : Word) : (s.accept w).degree = s.degree := rfl
@[simp] theorem State.accept_reduction (w : Word) : (s.accept w).reduction = s.reduction := rfl
@[simp] theorem State.accept_groupOrder (w : Word) : (s.accept w).groupOrder = s.groupOrder := rfl
@[simp] theorem State.accept_ceiling (w : Word) : (s.accept w).ceiling = s.ceiling := rfl
@[simp] theorem State.accept_primOnly (w : Word) : (s.accept w).primOnly = s.primOnly := rfl
@[simp] theorem State.accept_irrCount (w : Word) : (s.accept w).irrCount = s.irrCount := rfl
@[simp] theorem State.accept_primCount (w : Word) : (s.accept w).primCount = s.primCount := rfl
@[simp] theorem State.accept_emitCount (w : Word) : (s.accept w).emitCount = s.emitCount := rfl
@[simp] theorem State.accept_v (w : Word) : (s.accept w).v = s.v := rfl
@[simp] theorem State.accept_nk (w : Word) : (s.accept w).nk = s.nk := rfl
@[simp] theorem State.accept_fifo (w : Word) : (s.accept w).fifo = s.fifo := rfl
@[simp] theorem State.accept_seq (w : Word) : (s.accept w).seq = .accepted := rfl
@[simp] theorem State.accept_pend (w : Word) : (s.accept w).pend = s.pend := rfl
@[simp] theorem State.accept_schedule (w : Word) : (s.accept w).schedule = s.schedule := rfl
@[simp] theorem State.accept_rdata (w : Word) : (s.accept w).rdata = s.rdata := rfl
@[simp] theorem State.accept_draws (w : Word) : (s.accept w).draws = s.draws := rfl
@[simp] theorem State.accept_moves (w : Word) : (s.accept w).moves = s.moves := rfl

/-! `complete` -/

@[simp] theorem State.complete_fifoDepth : (s.complete).fifoDepth = s.fifoDepth := rfl
@[simp] theorem State.complete_done : (s.complete).done = s.done := rfl
@[simp] theorem State.complete_aborted : (s.complete).aborted = s.aborted := rfl
@[simp] theorem State.complete_errRec : (s.complete).errRec = s.errRec := rfl
@[simp] theorem State.complete_cmd : (s.complete).cmd = s.cmd := rfl
@[simp] theorem State.complete_flags : (s.complete).flags = s.flags := rfl
@[simp] theorem State.complete_irqEn : (s.complete).irqEn = s.irqEn := rfl
@[simp] theorem State.complete_cmdDone : (s.complete).cmdDone = true := rfl
@[simp] theorem State.complete_degree : (s.complete).degree = s.degree := rfl
@[simp] theorem State.complete_reduction : (s.complete).reduction = s.reduction := rfl
@[simp] theorem State.complete_groupOrder : (s.complete).groupOrder = s.groupOrder := rfl
@[simp] theorem State.complete_ceiling : (s.complete).ceiling = s.ceiling := rfl
@[simp] theorem State.complete_primOnly : (s.complete).primOnly = s.primOnly := rfl
@[simp] theorem State.complete_irrCount : (s.complete).irrCount = s.irrCount := rfl
@[simp] theorem State.complete_primCount : (s.complete).primCount = s.primCount := rfl
@[simp] theorem State.complete_emitCount : (s.complete).emitCount = s.emitCount := rfl
@[simp] theorem State.complete_v : (s.complete).v = s.v := rfl
@[simp] theorem State.complete_nk : (s.complete).nk = s.nk := rfl
@[simp] theorem State.complete_fifo : (s.complete).fifo = s.fifo := rfl
@[simp] theorem State.complete_seq : (s.complete).seq = .idle := rfl
@[simp] theorem State.complete_pend : (s.complete).pend = s.pend := rfl
@[simp] theorem State.complete_schedule : (s.complete).schedule = s.schedule := rfl
@[simp] theorem State.complete_rdata : (s.complete).rdata = s.rdata := rfl
@[simp] theorem State.complete_draws : (s.complete).draws = s.draws := rfl
@[simp] theorem State.complete_moves : (s.complete).moves = s.moves := rfl

/-! `setX` -/

@[simp] theorem State.setX_fifoDepth (x : Bool) : (s.setX x).fifoDepth = s.fifoDepth := rfl
@[simp] theorem State.setX_done (x : Bool) : (s.setX x).done = s.done := rfl
@[simp] theorem State.setX_aborted (x : Bool) : (s.setX x).aborted = s.aborted := rfl
@[simp] theorem State.setX_errRec (x : Bool) : (s.setX x).errRec = s.errRec := rfl
@[simp] theorem State.setX_cmd (x : Bool) : (s.setX x).cmd = s.cmd := rfl
@[simp] theorem State.setX_flags (x : Bool) : (s.setX x).flags = { s.flags with x := x } := rfl
@[simp] theorem State.setX_irqEn (x : Bool) : (s.setX x).irqEn = s.irqEn := rfl
@[simp] theorem State.setX_cmdDone (x : Bool) : (s.setX x).cmdDone = s.cmdDone := rfl
@[simp] theorem State.setX_degree (x : Bool) : (s.setX x).degree = s.degree := rfl
@[simp] theorem State.setX_reduction (x : Bool) : (s.setX x).reduction = s.reduction := rfl
@[simp] theorem State.setX_groupOrder (x : Bool) : (s.setX x).groupOrder = s.groupOrder := rfl
@[simp] theorem State.setX_ceiling (x : Bool) : (s.setX x).ceiling = s.ceiling := rfl
@[simp] theorem State.setX_primOnly (x : Bool) : (s.setX x).primOnly = s.primOnly := rfl
@[simp] theorem State.setX_irrCount (x : Bool) : (s.setX x).irrCount = s.irrCount := rfl
@[simp] theorem State.setX_primCount (x : Bool) : (s.setX x).primCount = s.primCount := rfl
@[simp] theorem State.setX_emitCount (x : Bool) : (s.setX x).emitCount = s.emitCount := rfl
@[simp] theorem State.setX_v (x : Bool) : (s.setX x).v = s.v := rfl
@[simp] theorem State.setX_nk (x : Bool) : (s.setX x).nk = s.nk := rfl
@[simp] theorem State.setX_fifo (x : Bool) : (s.setX x).fifo = s.fifo := rfl
@[simp] theorem State.setX_seq (x : Bool) : (s.setX x).seq = s.seq := rfl
@[simp] theorem State.setX_pend (x : Bool) : (s.setX x).pend = s.pend := rfl
@[simp] theorem State.setX_schedule (x : Bool) : (s.setX x).schedule = s.schedule := rfl
@[simp] theorem State.setX_rdata (x : Bool) : (s.setX x).rdata = s.rdata := rfl
@[simp] theorem State.setX_draws (x : Bool) : (s.setX x).draws = s.draws := rfl
@[simp] theorem State.setX_moves (x : Bool) : (s.setX x).moves = s.moves := rfl

/-! `setClassFlags` -/

@[simp] theorem State.setClassFlags_fifoDepth (p q r : Bool) : (s.setClassFlags p q r).fifoDepth = s.fifoDepth := rfl
@[simp] theorem State.setClassFlags_done (p q r : Bool) : (s.setClassFlags p q r).done = s.done := rfl
@[simp] theorem State.setClassFlags_aborted (p q r : Bool) : (s.setClassFlags p q r).aborted = s.aborted := rfl
@[simp] theorem State.setClassFlags_errRec (p q r : Bool) : (s.setClassFlags p q r).errRec = s.errRec := rfl
@[simp] theorem State.setClassFlags_cmd (p q r : Bool) : (s.setClassFlags p q r).cmd = s.cmd := rfl
@[simp] theorem State.setClassFlags_flags (p q r : Bool) : (s.setClassFlags p q r).flags = ⟨p, q, r, s.flags.x⟩ := rfl
@[simp] theorem State.setClassFlags_irqEn (p q r : Bool) : (s.setClassFlags p q r).irqEn = s.irqEn := rfl
@[simp] theorem State.setClassFlags_cmdDone (p q r : Bool) : (s.setClassFlags p q r).cmdDone = s.cmdDone := rfl
@[simp] theorem State.setClassFlags_degree (p q r : Bool) : (s.setClassFlags p q r).degree = s.degree := rfl
@[simp] theorem State.setClassFlags_reduction (p q r : Bool) : (s.setClassFlags p q r).reduction = s.reduction := rfl
@[simp] theorem State.setClassFlags_groupOrder (p q r : Bool) : (s.setClassFlags p q r).groupOrder = s.groupOrder := rfl
@[simp] theorem State.setClassFlags_ceiling (p q r : Bool) : (s.setClassFlags p q r).ceiling = s.ceiling := rfl
@[simp] theorem State.setClassFlags_primOnly (p q r : Bool) : (s.setClassFlags p q r).primOnly = s.primOnly := rfl
@[simp] theorem State.setClassFlags_irrCount (p q r : Bool) : (s.setClassFlags p q r).irrCount = s.irrCount := rfl
@[simp] theorem State.setClassFlags_primCount (p q r : Bool) : (s.setClassFlags p q r).primCount = s.primCount := rfl
@[simp] theorem State.setClassFlags_emitCount (p q r : Bool) : (s.setClassFlags p q r).emitCount = s.emitCount := rfl
@[simp] theorem State.setClassFlags_v (p q r : Bool) : (s.setClassFlags p q r).v = s.v := rfl
@[simp] theorem State.setClassFlags_nk (p q r : Bool) : (s.setClassFlags p q r).nk = s.nk := rfl
@[simp] theorem State.setClassFlags_fifo (p q r : Bool) : (s.setClassFlags p q r).fifo = s.fifo := rfl
@[simp] theorem State.setClassFlags_seq (p q r : Bool) : (s.setClassFlags p q r).seq = s.seq := rfl
@[simp] theorem State.setClassFlags_pend (p q r : Bool) : (s.setClassFlags p q r).pend = s.pend := rfl
@[simp] theorem State.setClassFlags_schedule (p q r : Bool) : (s.setClassFlags p q r).schedule = s.schedule := rfl
@[simp] theorem State.setClassFlags_rdata (p q r : Bool) : (s.setClassFlags p q r).rdata = s.rdata := rfl
@[simp] theorem State.setClassFlags_draws (p q r : Bool) : (s.setClassFlags p q r).draws = s.draws := rfl
@[simp] theorem State.setClassFlags_moves (p q r : Bool) : (s.setClassFlags p q r).moves = s.moves := rfl

/-! `clearError` -/

@[simp] theorem State.clearError_fifoDepth : (s.clearError).fifoDepth = s.fifoDepth := rfl
@[simp] theorem State.clearError_done : (s.clearError).done = s.done := rfl
@[simp] theorem State.clearError_aborted : (s.clearError).aborted = s.aborted := rfl
@[simp] theorem State.clearError_errRec : (s.clearError).errRec = none := rfl
@[simp] theorem State.clearError_cmd : (s.clearError).cmd = s.cmd := rfl
@[simp] theorem State.clearError_flags : (s.clearError).flags = s.flags := rfl
@[simp] theorem State.clearError_irqEn : (s.clearError).irqEn = s.irqEn := rfl
@[simp] theorem State.clearError_cmdDone : (s.clearError).cmdDone = s.cmdDone := rfl
@[simp] theorem State.clearError_degree : (s.clearError).degree = s.degree := rfl
@[simp] theorem State.clearError_reduction : (s.clearError).reduction = s.reduction := rfl
@[simp] theorem State.clearError_groupOrder : (s.clearError).groupOrder = s.groupOrder := rfl
@[simp] theorem State.clearError_ceiling : (s.clearError).ceiling = s.ceiling := rfl
@[simp] theorem State.clearError_primOnly : (s.clearError).primOnly = s.primOnly := rfl
@[simp] theorem State.clearError_irrCount : (s.clearError).irrCount = s.irrCount := rfl
@[simp] theorem State.clearError_primCount : (s.clearError).primCount = s.primCount := rfl
@[simp] theorem State.clearError_emitCount : (s.clearError).emitCount = s.emitCount := rfl
@[simp] theorem State.clearError_v : (s.clearError).v = s.v := rfl
@[simp] theorem State.clearError_nk : (s.clearError).nk = s.nk := rfl
@[simp] theorem State.clearError_fifo : (s.clearError).fifo = s.fifo := rfl
@[simp] theorem State.clearError_seq : (s.clearError).seq = s.seq := rfl
@[simp] theorem State.clearError_pend : (s.clearError).pend = s.pend := rfl
@[simp] theorem State.clearError_schedule : (s.clearError).schedule = s.schedule := rfl
@[simp] theorem State.clearError_rdata : (s.clearError).rdata = s.rdata := rfl
@[simp] theorem State.clearError_draws : (s.clearError).draws = s.draws := rfl
@[simp] theorem State.clearError_moves : (s.clearError).moves = s.moves := rfl

/-! `countResult` -/

@[simp] theorem State.countResult_fifoDepth (r : Result) : (s.countResult r).fifoDepth = s.fifoDepth := rfl
@[simp] theorem State.countResult_done (r : Result) : (s.countResult r).done = s.done := rfl
@[simp] theorem State.countResult_aborted (r : Result) : (s.countResult r).aborted = s.aborted := rfl
@[simp] theorem State.countResult_errRec (r : Result) : (s.countResult r).errRec = s.errRec := rfl
@[simp] theorem State.countResult_cmd (r : Result) : (s.countResult r).cmd = s.cmd := rfl
@[simp] theorem State.countResult_flags (r : Result) : (s.countResult r).flags = s.flags := rfl
@[simp] theorem State.countResult_irqEn (r : Result) : (s.countResult r).irqEn = s.irqEn := rfl
@[simp] theorem State.countResult_cmdDone (r : Result) : (s.countResult r).cmdDone = s.cmdDone := rfl
@[simp] theorem State.countResult_degree (r : Result) : (s.countResult r).degree = s.degree := rfl
@[simp] theorem State.countResult_reduction (r : Result) : (s.countResult r).reduction = s.reduction := rfl
@[simp] theorem State.countResult_groupOrder (r : Result) : (s.countResult r).groupOrder = s.groupOrder := rfl
@[simp] theorem State.countResult_ceiling (r : Result) : (s.countResult r).ceiling = s.ceiling := rfl
@[simp] theorem State.countResult_primOnly (r : Result) : (s.countResult r).primOnly = s.primOnly := rfl
@[simp] theorem State.countResult_irrCount (r : Result) : (s.countResult r).irrCount = s.irrCount + 1#64 := rfl
@[simp] theorem State.countResult_primCount (r : Result) : (s.countResult r).primCount = if r.prim then s.primCount + 1#64 else s.primCount := rfl
@[simp] theorem State.countResult_emitCount (r : Result) : (s.countResult r).emitCount = s.emitCount := rfl
@[simp] theorem State.countResult_v (r : Result) : (s.countResult r).v = s.v := rfl
@[simp] theorem State.countResult_nk (r : Result) : (s.countResult r).nk = s.nk := rfl
@[simp] theorem State.countResult_fifo (r : Result) : (s.countResult r).fifo = s.fifo := rfl
@[simp] theorem State.countResult_seq (r : Result) : (s.countResult r).seq = s.seq := rfl
@[simp] theorem State.countResult_pend (r : Result) : (s.countResult r).pend = s.pend := rfl
@[simp] theorem State.countResult_schedule (r : Result) : (s.countResult r).schedule = s.schedule := rfl
@[simp] theorem State.countResult_rdata (r : Result) : (s.countResult r).rdata = s.rdata := rfl
@[simp] theorem State.countResult_draws (r : Result) : (s.countResult r).draws = s.draws := rfl
@[simp] theorem State.countResult_moves (r : Result) : (s.countResult r).moves = s.moves := rfl

/-! `pushResult` -/

@[simp] theorem State.pushResult_fifoDepth (r : Result) : (s.pushResult r).fifoDepth = s.fifoDepth := rfl
@[simp] theorem State.pushResult_done (r : Result) : (s.pushResult r).done = (s.done || (decide (s.ceiling ≠ 0#64) && decide (s.emitCount + 1#64 = s.ceiling))) := rfl
@[simp] theorem State.pushResult_aborted (r : Result) : (s.pushResult r).aborted = s.aborted := rfl
@[simp] theorem State.pushResult_errRec (r : Result) : (s.pushResult r).errRec = s.errRec := rfl
@[simp] theorem State.pushResult_cmd (r : Result) : (s.pushResult r).cmd = s.cmd := rfl
@[simp] theorem State.pushResult_flags (r : Result) : (s.pushResult r).flags = s.flags := rfl
@[simp] theorem State.pushResult_irqEn (r : Result) : (s.pushResult r).irqEn = s.irqEn := rfl
@[simp] theorem State.pushResult_cmdDone (r : Result) : (s.pushResult r).cmdDone = s.cmdDone := rfl
@[simp] theorem State.pushResult_degree (r : Result) : (s.pushResult r).degree = s.degree := rfl
@[simp] theorem State.pushResult_reduction (r : Result) : (s.pushResult r).reduction = s.reduction := rfl
@[simp] theorem State.pushResult_groupOrder (r : Result) : (s.pushResult r).groupOrder = s.groupOrder := rfl
@[simp] theorem State.pushResult_ceiling (r : Result) : (s.pushResult r).ceiling = s.ceiling := rfl
@[simp] theorem State.pushResult_primOnly (r : Result) : (s.pushResult r).primOnly = s.primOnly := rfl
@[simp] theorem State.pushResult_irrCount (r : Result) : (s.pushResult r).irrCount = s.irrCount := rfl
@[simp] theorem State.pushResult_primCount (r : Result) : (s.pushResult r).primCount = s.primCount := rfl
@[simp] theorem State.pushResult_emitCount (r : Result) : (s.pushResult r).emitCount = s.emitCount + 1#64 := rfl
@[simp] theorem State.pushResult_v (r : Result) : (s.pushResult r).v = s.v := rfl
@[simp] theorem State.pushResult_nk (r : Result) : (s.pushResult r).nk = s.nk := rfl
@[simp] theorem State.pushResult_fifo (r : Result) : (s.pushResult r).fifo = s.fifo ++ [r] := rfl
@[simp] theorem State.pushResult_seq (r : Result) : (s.pushResult r).seq = s.seq := rfl
@[simp] theorem State.pushResult_pend (r : Result) : (s.pushResult r).pend = s.pend := rfl
@[simp] theorem State.pushResult_schedule (r : Result) : (s.pushResult r).schedule = s.schedule := rfl
@[simp] theorem State.pushResult_rdata (r : Result) : (s.pushResult r).rdata = s.rdata := rfl
@[simp] theorem State.pushResult_draws (r : Result) : (s.pushResult r).draws = s.draws := rfl
@[simp] theorem State.pushResult_moves (r : Result) : (s.pushResult r).moves = s.moves := rfl

/-! `popFifo` -/

@[simp] theorem State.popFifo_fifoDepth : (s.popFifo).fifoDepth = s.fifoDepth := rfl
@[simp] theorem State.popFifo_done : (s.popFifo).done = s.done := rfl
@[simp] theorem State.popFifo_aborted : (s.popFifo).aborted = s.aborted := rfl
@[simp] theorem State.popFifo_errRec : (s.popFifo).errRec = s.errRec := rfl
@[simp] theorem State.popFifo_cmd : (s.popFifo).cmd = s.cmd := rfl
@[simp] theorem State.popFifo_flags : (s.popFifo).flags = s.flags := rfl
@[simp] theorem State.popFifo_irqEn : (s.popFifo).irqEn = s.irqEn := rfl
@[simp] theorem State.popFifo_cmdDone : (s.popFifo).cmdDone = s.cmdDone := rfl
@[simp] theorem State.popFifo_degree : (s.popFifo).degree = s.degree := rfl
@[simp] theorem State.popFifo_reduction : (s.popFifo).reduction = s.reduction := rfl
@[simp] theorem State.popFifo_groupOrder : (s.popFifo).groupOrder = s.groupOrder := rfl
@[simp] theorem State.popFifo_ceiling : (s.popFifo).ceiling = s.ceiling := rfl
@[simp] theorem State.popFifo_primOnly : (s.popFifo).primOnly = s.primOnly := rfl
@[simp] theorem State.popFifo_irrCount : (s.popFifo).irrCount = s.irrCount := rfl
@[simp] theorem State.popFifo_primCount : (s.popFifo).primCount = s.primCount := rfl
@[simp] theorem State.popFifo_emitCount : (s.popFifo).emitCount = s.emitCount := rfl
@[simp] theorem State.popFifo_v : (s.popFifo).v = s.v := rfl
@[simp] theorem State.popFifo_nk : (s.popFifo).nk = s.nk := rfl
@[simp] theorem State.popFifo_fifo : (s.popFifo).fifo = s.fifo.tail := rfl
@[simp] theorem State.popFifo_seq : (s.popFifo).seq = s.seq := rfl
@[simp] theorem State.popFifo_pend : (s.popFifo).pend = s.pend := rfl
@[simp] theorem State.popFifo_schedule : (s.popFifo).schedule = s.schedule := rfl
@[simp] theorem State.popFifo_rdata : (s.popFifo).rdata = s.rdata := rfl
@[simp] theorem State.popFifo_draws : (s.popFifo).draws = s.draws := rfl
@[simp] theorem State.popFifo_moves : (s.popFifo).moves = s.moves := rfl

/-! `raiseError` -/

/-- Recording an error changes the record and nothing else. -/
theorem State.raiseError_eq (c : ErrCause) (info data : Word) :
    s.raiseError c info data = { s with errRec := s.recorded ⟨c, info, data⟩ } := by
  unfold State.raiseError State.recorded
  cases h : s.errRec <;> simp [← h]

@[simp] theorem State.raiseError_fifoDepth (c : ErrCause) (info data : Word) :
    (s.raiseError c info data).fifoDepth = s.fifoDepth := by rw [State.raiseError_eq]
@[simp] theorem State.raiseError_done (c : ErrCause) (info data : Word) :
    (s.raiseError c info data).done = s.done := by rw [State.raiseError_eq]
@[simp] theorem State.raiseError_aborted (c : ErrCause) (info data : Word) :
    (s.raiseError c info data).aborted = s.aborted := by rw [State.raiseError_eq]
@[simp] theorem State.raiseError_errRec (c : ErrCause) (info data : Word) :
    (s.raiseError c info data).errRec = s.recorded ⟨c, info, data⟩ := by rw [State.raiseError_eq]
@[simp] theorem State.raiseError_cmd (c : ErrCause) (info data : Word) :
    (s.raiseError c info data).cmd = s.cmd := by rw [State.raiseError_eq]
@[simp] theorem State.raiseError_flags (c : ErrCause) (info data : Word) :
    (s.raiseError c info data).flags = s.flags := by rw [State.raiseError_eq]
@[simp] theorem State.raiseError_irqEn (c : ErrCause) (info data : Word) :
    (s.raiseError c info data).irqEn = s.irqEn := by rw [State.raiseError_eq]
@[simp] theorem State.raiseError_cmdDone (c : ErrCause) (info data : Word) :
    (s.raiseError c info data).cmdDone = s.cmdDone := by rw [State.raiseError_eq]
@[simp] theorem State.raiseError_degree (c : ErrCause) (info data : Word) :
    (s.raiseError c info data).degree = s.degree := by rw [State.raiseError_eq]
@[simp] theorem State.raiseError_reduction (c : ErrCause) (info data : Word) :
    (s.raiseError c info data).reduction = s.reduction := by rw [State.raiseError_eq]
@[simp] theorem State.raiseError_groupOrder (c : ErrCause) (info data : Word) :
    (s.raiseError c info data).groupOrder = s.groupOrder := by rw [State.raiseError_eq]
@[simp] theorem State.raiseError_ceiling (c : ErrCause) (info data : Word) :
    (s.raiseError c info data).ceiling = s.ceiling := by rw [State.raiseError_eq]
@[simp] theorem State.raiseError_primOnly (c : ErrCause) (info data : Word) :
    (s.raiseError c info data).primOnly = s.primOnly := by rw [State.raiseError_eq]
@[simp] theorem State.raiseError_irrCount (c : ErrCause) (info data : Word) :
    (s.raiseError c info data).irrCount = s.irrCount := by rw [State.raiseError_eq]
@[simp] theorem State.raiseError_primCount (c : ErrCause) (info data : Word) :
    (s.raiseError c info data).primCount = s.primCount := by rw [State.raiseError_eq]
@[simp] theorem State.raiseError_emitCount (c : ErrCause) (info data : Word) :
    (s.raiseError c info data).emitCount = s.emitCount := by rw [State.raiseError_eq]
@[simp] theorem State.raiseError_v (c : ErrCause) (info data : Word) :
    (s.raiseError c info data).v = s.v := by rw [State.raiseError_eq]
@[simp] theorem State.raiseError_nk (c : ErrCause) (info data : Word) :
    (s.raiseError c info data).nk = s.nk := by rw [State.raiseError_eq]
@[simp] theorem State.raiseError_fifo (c : ErrCause) (info data : Word) :
    (s.raiseError c info data).fifo = s.fifo := by rw [State.raiseError_eq]
@[simp] theorem State.raiseError_seq (c : ErrCause) (info data : Word) :
    (s.raiseError c info data).seq = s.seq := by rw [State.raiseError_eq]
@[simp] theorem State.raiseError_pend (c : ErrCause) (info data : Word) :
    (s.raiseError c info data).pend = s.pend := by rw [State.raiseError_eq]
@[simp] theorem State.raiseError_schedule (c : ErrCause) (info data : Word) :
    (s.raiseError c info data).schedule = s.schedule := by rw [State.raiseError_eq]
@[simp] theorem State.raiseError_rdata (c : ErrCause) (info data : Word) :
    (s.raiseError c info data).rdata = s.rdata := by rw [State.raiseError_eq]
@[simp] theorem State.raiseError_draws (c : ErrCause) (info data : Word) :
    (s.raiseError c info data).draws = s.draws := by rw [State.raiseError_eq]
@[simp] theorem State.raiseError_moves (c : ErrCause) (info data : Word) :
    (s.raiseError c info data).moves = s.moves := by rw [State.raiseError_eq]

/-! `tick` -/

@[simp] theorem State.tick_fifoDepth : s.tick.fifoDepth = s.fifoDepth := rfl
@[simp] theorem State.tick_done : s.tick.done = s.done := rfl
@[simp] theorem State.tick_aborted : s.tick.aborted = s.aborted := rfl
@[simp] theorem State.tick_errRec : s.tick.errRec = s.errRec := rfl
@[simp] theorem State.tick_cmd : s.tick.cmd = s.cmd := rfl
@[simp] theorem State.tick_flags : s.tick.flags = s.flags := rfl
@[simp] theorem State.tick_irqEn : s.tick.irqEn = s.irqEn := rfl
@[simp] theorem State.tick_cmdDone : s.tick.cmdDone = s.cmdDone := rfl
@[simp] theorem State.tick_degree : s.tick.degree = s.degree := rfl
@[simp] theorem State.tick_reduction : s.tick.reduction = s.reduction := rfl
@[simp] theorem State.tick_groupOrder : s.tick.groupOrder = s.groupOrder := rfl
@[simp] theorem State.tick_ceiling : s.tick.ceiling = s.ceiling := rfl
@[simp] theorem State.tick_primOnly : s.tick.primOnly = s.primOnly := rfl
@[simp] theorem State.tick_irrCount : s.tick.irrCount = s.irrCount := rfl
@[simp] theorem State.tick_primCount : s.tick.primCount = s.primCount := rfl
@[simp] theorem State.tick_emitCount : s.tick.emitCount = s.emitCount := rfl
@[simp] theorem State.tick_v : s.tick.v = s.v := rfl
@[simp] theorem State.tick_nk : s.tick.nk = s.nk := rfl
@[simp] theorem State.tick_fifo : s.tick.fifo = s.fifo := rfl
@[simp] theorem State.tick_seq : s.tick.seq = s.seq := rfl
@[simp] theorem State.tick_pend : s.tick.pend = s.pend := rfl
@[simp] theorem State.tick_schedule : s.tick.schedule = s.schedule := rfl
@[simp] theorem State.tick_rdata : s.tick.rdata = s.rdata := rfl
@[simp] theorem State.tick_draws : s.tick.draws = s.draws := rfl
@[simp] theorem State.tick_moves : s.tick.moves = s.moves + 1 := rfl

/-! The ends of a command -/

/-- A failing command leaves the record and the completion, nothing else (60_exceptions.md R215). -/
theorem State.failCommand_eq (c : ErrCause) (data : Word) : s.failCommand c data = s.failedWith ⟨c, s.cmd, data⟩ := by
  simp [State.failCommand, State.raiseError_eq, State.complete, State.failedWith]

/-- A command that writes its destination leaves V[d] and the completion, nothing else. -/
theorem State.finishV_eq (d : RegNum) (x : Operand) : s.finishV d x = s.wrote d x := rfl

/-- Taking the next event off a schedule that lists it gives the state back. -/
@[simp] theorem State.nextEvent_hostWrites (off : WinOffset) (w : Word) :
    (s.hostWrites off w).nextEvent = (.host (.write ⟨off, 8, 0xFF#8⟩ w), s) := rfl

@[simp] theorem State.nextEvent_hostReads (off : WinOffset) :
    (s.hostReads off).nextEvent = (.host (.read ⟨off, 8, 0xFF#8⟩), s) := rfl

@[simp] theorem State.nextEvent_coreMoves : s.coreMoves.nextEvent = (.core, s) := rfl

end Sys2Proof.Machine
end

