-- ==== Sys2Proof/Laws/Ops.lean ====
section
/-! SUPPORT. What the shared operations can do: the register file, the degree check, the ends of a command, and what a
turn of the core can answer. -/

namespace Sys2Proof.Machine

open Sys2Proof

variable (s : State)

/-! The register file (10_state.md R38) -/

/-- A register's value as an optional entry of the file. -/
theorem State.getV_eq (r : RegNum) : s.getV r = (s.v[r.toNat]?).getD 0#65 := by
  unfold State.getV Vector.getD
  rw [Array.getD_eq_getD_getElem?]
  simp

/-- Reading a register that was just written. -/
theorem State.getV_setV_same (r : RegNum) (x : Operand) (h : r.toNat < 8) : (s.setV r x).getV r = x := by
  simp [State.getV_eq, State.setV, h]

/-- A write leaves every other register. -/
theorem State.getV_setV_ne (r q : RegNum) (x : Operand) (h : q ≠ r) : (s.setV r x).getV q = s.getV q := by
  have : r.toNat ≠ q.toNat := fun e => h (BitVec.eq_of_toNat_eq e.symm)
  simp [State.getV_eq, State.setV, this]

/-- A field above 7 names no register: it reads 0 and a write is lost (log 12). -/
theorem State.getV_range (r : RegNum) (h : 8 ≤ r.toNat) : s.getV r = 0#65 := by
  simp [State.getV_eq, h]

theorem State.setV_range (r : RegNum) (x : Operand) (h : 8 ≤ r.toNat) : s.setV r x = s := by
  simp [State.setV, Vector.setIfInBounds, Array.setIfInBounds, Nat.not_lt.2 h]

/-- A read of a register depends on the register file alone. -/
theorem State.getV_congr {s t : State} (h : t.v = s.v) (r : RegNum) : t.getV r = s.getV r := by
  simp [State.getV, h]

/-- The register file after a command that writes its destination. -/
theorem State.getV_wrote_same (d : RegNum) (x : Operand) (h : d.toNat < 8) : (s.wrote d x).getV d = x :=
  s.getV_setV_same d x h

theorem State.getV_wrote_ne (d q : RegNum) (x : Operand) (h : q ≠ d) : (s.wrote d x).getV q = s.getV q :=
  s.getV_setV_ne d q x h

/-! The degree check (30_encoding.md R94) -/

theorem State.degreeOk_iff : s.degreeOk = true ↔ s.DegreeLegal := decide_eq_true_iff

/-- A legal degree reaches the command's body. -/
theorem State.withDegree_legal (k : Nat → State) (h : s.DegreeLegal) : s.withDegree k = .next (k s.degree.toNat) := by
  simp [State.withDegree, s.degreeOk_iff.2 h, State.deg]

/-- An illegal one ends the command with INVALID_DEGREE. -/
theorem State.withDegree_illegal (k : Nat → State) (h : ¬ s.DegreeLegal) : s.withDegree k = .next s.failedDegree := by
  simp [State.withDegree, mt s.degreeOk_iff.1 h, State.failCommand_eq, State.failedDegree]

/-- Everything the degree check can answer. -/
theorem State.withDegree_cases {k : Nat → State} {t : State} (h : s.withDegree k = .next t) :
    s.DegreeLegal ∧ t = k s.degree.toNat ∨ ¬ s.DegreeLegal ∧ t = s.failedDegree := by
  by_cases hd : s.DegreeLegal
  · rw [s.withDegree_legal k hd] at h; cases h; exact .inl ⟨hd, rfl⟩
  · rw [s.withDegree_illegal k hd] at h; cases h; exact .inr ⟨hd, rfl⟩

/-- The error record after `recorded`. -/
theorem State.recorded_cases (r : ErrRecord) :
    s.errRec = none ∧ s.recorded r = some r ∨ ∃ q, s.errRec = some q ∧ s.recorded r = some q := by
  cases h : s.errRec <;> simp [State.recorded, h]

theorem State.recorded_isSome (r : ErrRecord) : (s.recorded r).isSome = true := by
  cases h : s.errRec <;> simp [State.recorded, h]

/-! What a turn of the core can answer -/

theorem State.withDegree_next (k : Nat → State) : ∃ t, s.withDegree k = .next t := by
  by_cases hd : s.DegreeLegal
  · exact ⟨_, s.withDegree_legal k hd⟩
  · exact ⟨_, s.withDegree_illegal k hd⟩

/-- Every command answers a next state, in every state (log 22: there is no fault; no arm is refused). -/
theorem exec_next (i : Instr) : ∃ t, exec i s = .next t := by
  cases i with
  | nop => exact ⟨_, rfl⟩
  | gcd => exact ⟨_, rfl⟩
  | nknext d => simp only [exec, execNknext]; split <;> exact ⟨_, rfl⟩
  | run =>
    simp only [exec, execRun]
    split
    · exact ⟨_, rfl⟩
    · exact s.withDegree_next _
  | _ =>
    simp only [exec, execAdd, execMul, execSqr, execPow, execGen, execMinpe, execMinpr, execRecip, execClassify,
      execNkinit]
    exact s.withDegree_next _

/-- A turn of the core answers a next state. -/
theorem coreStep_next : ∃ t, coreStep s = .next t := by
  unfold coreStep
  split
  · split
    · exact exec_next s _
    · exact ⟨_, rfl⟩
  · exact ⟨_, rfl⟩

theorem State.busy_iff : s.busy = true ↔ s.seq ≠ .idle := decide_eq_true_iff

/-- A core step of the command in progress. -/
theorem coreStep_ok {i : Instr} (hb : s.seq ≠ .idle) (h : decode s.cmd = .ok i) : coreStep s = exec i s := by
  simp [coreStep, s.busy_iff.2 hb, State.fetch, h]

/-- The core step of a word that is no command (60_exceptions.md R213). -/
theorem coreStep_error {e : DecodeReject} (hb : s.seq ≠ .idle) (h : decode s.cmd = .error e) :
    coreStep s = .next (s.failedWith ⟨.illegalCommand, s.cmd, 0#64⟩) := by
  simp [coreStep, s.busy_iff.2 hb, State.fetch, h, State.failCommand_eq]

/-- With no command in progress the core does nothing. -/
theorem coreStep_idle (h : s.seq = .idle) : coreStep s = .next s := by
  simp [coreStep, State.busy, h]

/-- Everything a turn of the core can do. -/
theorem coreStep_cases {t : State} (h : coreStep s = .next t) :
    s.seq = .idle ∧ t = s ∨
    s.seq ≠ .idle ∧ (∃ i, decode s.cmd = .ok i ∧ exec i s = .next t) ∨
    s.seq ≠ .idle ∧ (∃ e, decode s.cmd = .error e) ∧ t = s.failedWith ⟨.illegalCommand, s.cmd, 0#64⟩ := by
  by_cases hb : s.seq = .idle
  · rw [coreStep_idle s hb] at h; cases h; exact .inl ⟨hb, rfl⟩
  · right
    cases hd : decode s.cmd with
    | ok i => rw [coreStep_ok s hb hd] at h; exact .inl ⟨hb, i, rfl, h⟩
    | error e => rw [coreStep_error s hb hd] at h; cases h; exact .inr ⟨hb, ⟨e, rfl⟩, rfl⟩

/-! The step on a state that lists its next event -/

theorem step_coreMoves : step s.coreMoves = coreStep s.tick := rfl

theorem step_hostWrites (off : WinOffset) (w : Word) :
    step (s.hostWrites off w) = hostStep (.write ⟨off, 8, 0xFF#8⟩ w) s := rfl

theorem step_hostReads (off : WinOffset) : step (s.hostReads off) = hostStep (.read ⟨off, 8, 0xFF#8⟩) s := rfl

/-- With an empty schedule the core has its turn. -/
theorem step_nil (h : s.schedule = []) : step s = coreStep s.tick := by
  simp [step, State.nextEvent, h, eventStep]

/-- With an event listed, the step is that event on the rest. -/
theorem step_cons {ev : Event} {evs : List Event} (h : s.schedule = ev :: evs) :
    step s = eventStep ev { s with schedule := evs } := by
  simp [step, State.nextEvent, h]

end Sys2Proof.Machine
end

