-- ==== Sys2Proof/Laws/Exec.lean ====
section
/-! SUPPORT. Everything each command can do: if `exec` answers next `t`, then `t` is one of the listed states. -/

namespace Sys2Proof.Machine

open Sys2Proof

variable (s : State)

/-! Each command over the shared operations: the equations a proof rewrites with instead of unfolding `exec`. -/

theorem exec_nop : exec .nop s = .next s.complete := rfl

theorem exec_add (d a b : RegNum) : exec (.add d a b) s =
    s.withDegree fun n => s.finishV d (zext65 (elementOf n (s.getV a) ^^^ elementOf n (s.getV b))) := rfl

theorem exec_mul (d a b : RegNum) : exec (.mul d a b) s =
    s.withDegree fun n => s.finishV d (zext65 (gfMul (elementOf n (s.getV a)) (elementOf n (s.getV b)) (s.red n))) :=
  rfl

theorem exec_sqr (d a : RegNum) : exec (.sqr d a) s =
    s.withDegree fun n => s.finishV d (zext65 (gfMul (elementOf n (s.getV a)) (elementOf n (s.getV a)) (s.red n))) :=
  rfl

theorem exec_pow (d a b : RegNum) : exec (.pow d a b) s =
    s.withDegree fun n => s.finishV d (zext65 (gfPow (elementOf n (s.getV a)) (integerOf (s.getV b)) (s.red n))) :=
  rfl

theorem exec_gen (d : RegNum) : exec (.gen d) s =
    s.withDegree fun n => s.finishV d (zext65 (generator (s.red n))) := rfl

theorem exec_minpe (d a : RegNum) : exec (.minpe d a) s =
    s.withDegree fun n =>
      s.finishMinPoly d n (rootOf (integerOf (s.getV a)) (s.red n)) (integerOf (s.getV a)) := rfl

theorem exec_minpr (d a : RegNum) : exec (.minpr d a) s =
    s.withDegree fun n =>
      s.finishMinPoly d n (elementOf n (s.getV a)) ((elementOf n (s.getV a)).setWidth 64) := rfl

theorem exec_gcd (d a b : RegNum) : exec (.gcd d a b) s =
    .next (s.finishV d (zext65 (gcd64 (integerOf (s.getV a)) (integerOf (s.getV b))))) := rfl

theorem exec_recip (d a : RegNum) : exec (.recip d a) s =
    s.withDegree fun n => s.finishV d (zext65 (revN (polynomialOf n (s.getV a)))) := rfl

theorem exec_classify (d a b : RegNum) : exec (.classify d a b) s =
    s.withDegree fun n =>
      s.finishClass d (classifyPoly (integerOf (s.getV a)) (polynomialOf n (s.getV b)) s.groupOrder) := rfl

theorem exec_nkinit : exec .nkinit s =
    s.withDegree fun _ => ({ s with nk := nkStart s.degree }.setX false).complete := rfl

theorem exec_nknext (d : RegNum) : exec (.nknext d) s =
    if s.nk.st = .active then .next (s.finishNknext d (nkSeek s.nk)) else .next (s.setX true).complete := rfl

theorem exec_run_first (hq : s.seq ≠ .runLoop) : exec .run s = s.withDegree fun _ => s.runInit := by
  simp [exec, execRun]

/-- The end of MINPE and MINPR where the orbit closes, and where it does not. -/
theorem State.finishMinPoly_some {d : RegNum} {n : Nat} {root : BitVec n} {data : Word} {m : BitVec (n + 1)}
    (h : minPoly root (s.red n) = some m) : s.finishMinPoly d n root data = s.wrote d (zext65 m) := by
  simp [State.finishMinPoly, h, State.finishV_eq]

theorem State.finishMinPoly_none {d : RegNum} {n : Nat} {root : BitVec n} {data : Word}
    (h : minPoly root (s.red n) = none) :
    s.finishMinPoly d n root data = s.failedWith ⟨.arithInvariant, s.cmd, data⟩ := by
  simp [State.finishMinPoly, h, State.failCommand_eq]

/-- The commands that write one operand register and nothing else: ADD, MUL, SQR, POW, GEN, MINPE, MINPR, GCD, RECIP. -/
def writesOnlyV : Instr → Prop
  | .add _ _ _ | .mul _ _ _ | .sqr _ _ | .pow _ _ _ | .gen _ | .minpe _ _ | .minpr _ _ | .gcd _ _ _ | .recip _ _ => True
  | .nop | .classify _ _ _ | .nkinit | .nknext _ | .run => False

/-- Such a command writes V[RD], or fails with nothing written. -/
theorem exec_writesOnlyV {i : Instr} {t : State} (hi : writesOnlyV i) (h : exec i s = .next t) :
    (∃ x, t = s.wrote i.rd x) ∨
    ¬ s.DegreeLegal ∧ i.readsDegree = true ∧ t = s.failedDegree ∨
    ((∃ d a, i = .minpe d a ∨ i = .minpr d a) ∧ ∃ data, t = s.failedWith ⟨.arithInvariant, s.cmd, data⟩) := by
  cases i <;> simp only [writesOnlyV] at hi <;>
    simp only [exec, execAdd, execMul, execSqr, execPow, execGen, execMinpe, execMinpr, execGcd, execRecip] at h
  case gcd => cases h; exact .inl ⟨_, rfl⟩
  case minpe | minpr =>
    rcases s.withDegree_cases h with ⟨-, rfl⟩ | ⟨hd, rfl⟩
    · unfold State.finishMinPoly
      split
      · exact .inl ⟨_, rfl⟩
      · exact .inr (.inr ⟨by simp, _, State.failCommand_eq s _ _⟩)
    · exact .inr (.inl ⟨hd, rfl, rfl⟩)
  all_goals
    rcases s.withDegree_cases h with ⟨-, rfl⟩ | ⟨hd, rfl⟩
    · exact .inl ⟨_, rfl⟩
    · exact .inr (.inl ⟨hd, rfl, rfl⟩)

/-- CLASS writes V[RD] and the flags P, S, R, or fails on the degree (43_classify.md R165). -/
theorem exec_classify_cases {d a b : RegNum} {t : State} (h : exec (.classify d a b) s = .next t) :
    (∃ x p q r, t = { s.wrote d x with flags := ⟨p, q, r, s.flags.x⟩ }) ∨ ¬ s.DegreeLegal ∧ t = s.failedDegree := by
  simp only [exec, execClassify] at h
  rcases s.withDegree_cases h with ⟨-, rfl⟩ | h
  · exact .inl ⟨_, _, _, _, rfl⟩
  · exact .inr h

/-- NKINIT starts the generator with the degree it has checked, or fails (40_necklace.md R105). -/
theorem exec_nkinit_cases {t : State} (h : exec .nkinit s = .next t) :
    s.DegreeLegal ∧ t = { s with nk := nkStart s.degree, flags := { s.flags with x := false }, seq := .idle,
                                 cmdDone := true } ∨
    ¬ s.DegreeLegal ∧ t = s.failedDegree := by
  simp only [exec, execNkinit] at h
  rcases s.withDegree_cases h with ⟨hd, rfl⟩ | h
  · exact .inl ⟨hd, rfl⟩
  · exact .inr h

/-- NKNEXT sets X, or walks the generator and gives its answer (40_necklace.md R106). -/
theorem exec_nknext_cases {d : RegNum} {t : State} (h : exec (.nknext d) s = .next t) :
    s.nk.st ≠ .active ∧ t = { s with flags := { s.flags with x := true }, seq := .idle, cmdDone := true } ∨
    s.nk.st = .active ∧ ∃ k found, nkSeek s.nk = (k, found) ∧
      t = if found then { s.wrote d (zext65 k.a) with nk := k, flags := { s.flags with x := false } }
          else { s with nk := k, flags := { s.flags with x := true }, seq := .idle, cmdDone := true } := by
  simp only [exec, execNknext] at h
  split at h
  · rename_i ha
    cases h
    refine .inr ⟨ha, ?_⟩
    rcases nkSeek s.nk with ⟨k, _ | _⟩
    · exact ⟨k, false, rfl, rfl⟩
    · exact ⟨k, true, rfl, rfl⟩
  · rename_i ha
    cases h
    exact .inl ⟨ha, rfl⟩

/-- RUN's first core step (44_run.md R181, R182). -/
theorem exec_run_first_cases {t : State} (hq : s.seq ≠ .runLoop) (h : exec .run s = .next t) :
    s.DegreeLegal ∧ t = s.runInit ∨ ¬ s.DegreeLegal ∧ t = s.failedDegree := by
  simp only [exec, execRun] at h
  exact s.withDegree_cases h

/-- RUN's later core steps. -/
theorem exec_run_loop (hq : s.seq = .runLoop) : exec .run s = .next s.runStep := by
  simp [exec, execRun, hq]

/-- A candidate step moves the necklace state, and fills PEND or ends the run (44_run.md R184, R191). -/
theorem State.runCandidate_cases :
    (∃ k, nkSeek s.nk = (k, false) ∧ s.runCandidate = { s with nk := k }) ∨
    ∃ k, nkSeek s.nk = (k, true) ∧
      ((∃ l, l.length ≤ 2 ∧ s.runCandidate = { s with nk := k, pend := l }) ∨
        s.runCandidate = { s.failedWith ⟨.arithInvariant, s.cmd, k.a⟩ with nk := k }) := by
  unfold State.runCandidate
  rcases nkSeek s.nk with ⟨k, _ | _⟩
  · exact .inl ⟨k, rfl, rfl⟩
  · refine .inr ⟨k, rfl, ?_⟩
    simp only [State.runCandidateWith, State.runExamine]
    split
    · right; rw [State.failCommand_eq]; rfl
    · refine .inl ⟨_, ?_, rfl⟩
      unfold reciprocalResults
      split_ifs <;> simp

/-- A result step (44_run.md R186): it discards PEND, holds, pushes and counts the head, or only counts it. -/
theorem State.runResult_cases (r : Result) (rest : List Result) :
    s.done = true ∧ s.runResult r rest = { s with pend := [] } ∨
    s.done = false ∧ s.emits r = true ∧ s.fifoDepth.toNat ≤ s.fifo.length ∧ s.runResult r rest = s ∨
    s.done = false ∧ s.emits r = true ∧ s.fifo.length < s.fifoDepth.toNat ∧
      s.runResult r rest = { (s.countResult r).pushResult r with pend := rest } ∨
    s.done = false ∧ s.emits r = false ∧ s.runResult r rest = { s.countResult r with pend := rest } := by
  unfold State.runResult State.fifoFull
  cases hd : s.done <;> cases he : s.emits r <;> simp
  by_cases hf : s.fifoDepth.toNat ≤ s.fifo.length
  · simp [hf]
  · simp [hf, Nat.lt_of_not_le hf]

/-- The kind of step after initialisation (44_run.md R183). -/
theorem State.runStep_cases :
    (∃ r rest, s.pend = r :: rest ∧ s.runStep = s.runResult r rest) ∨
    s.pend = [] ∧ (s.done = true ∨ s.nk.st = .exhausted) ∧ s.runStep = s.complete ∨
    s.pend = [] ∧ s.done = false ∧ s.nk.st ≠ .exhausted ∧ s.runStep = s.runCandidate := by
  unfold State.runStep
  cases hp : s.pend with
  | cons r rest => exact .inl ⟨r, rest, rfl, rfl⟩
  | nil =>
    right
    cases hd : s.done <;> by_cases he : s.nk.st = .exhausted <;> simp [he]

/-! The model's own fields: no command reads them, and none writes them -/

/-- `s` with other values in the model's own fields. -/
def State.withOwn (evs : List Event) (x : Word) (m k : Nat) : State :=
  { s with schedule := evs, rdata := x, draws := m, moves := k }

/-- The degree check sees no field of the model's own. -/
theorem State.withDegree_withOwn {f g : Nat → State} {t : State} {evs : List Event} {x : Word} {m k : Nat}
    (hf : ∀ n, g n = (f n).withOwn evs x m k) (h : s.withDegree f = .next t) :
    (s.withOwn evs x m k).withDegree g = .next (t.withOwn evs x m k) := by
  rcases s.withDegree_cases h with ⟨hd, rfl⟩ | ⟨hd, rfl⟩
  · rw [← hf]; exact (s.withOwn evs x m k).withDegree_legal g hd
  · exact (s.withOwn evs x m k).withDegree_illegal g hd

/-- The end of MINPE and MINPR sees no field of the model's own. -/
theorem State.finishMinPoly_withOwn (d : RegNum) (n : Nat) (root : BitVec n) (data : Word) (evs : List Event) (x : Word)
    (m k : Nat) :
    (s.withOwn evs x m k).finishMinPoly d n root data = (s.finishMinPoly d n root data).withOwn evs x m k := by
  have hr : (s.withOwn evs x m k).red n = s.red n := rfl
  unfold State.finishMinPoly
  rw [hr]
  split
  · rfl
  · rw [State.failCommand_eq, State.failCommand_eq]; rfl

/-- RUN's later steps see no field of the model's own. -/
theorem State.runStep_withOwn (evs : List Event) (x : Word) (m k : Nat) :
    (s.withOwn evs x m k).runStep = s.runStep.withOwn evs x m k := by
  have hp : (s.withOwn evs x m k).pend = s.pend := rfl
  have hc : (s.withOwn evs x m k).runCandidate = s.runCandidate.withOwn evs x m k := by
    have hn : (s.withOwn evs x m k).nk = s.nk := rfl
    unfold State.runCandidate
    rw [hn]
    rcases nkSeek s.nk with ⟨q, _ | _⟩
    · rfl
    · simp only [State.runCandidateWith, State.runExamine]
      have hr : ∀ n, State.red { s.withOwn evs x m k with nk := q } n = State.red { s with nk := q } n := fun _ => rfl
      rw [hr]
      split
      · rw [State.failCommand_eq, State.failCommand_eq]; rfl
      · rfl
  have hr : ∀ r rest, (s.withOwn evs x m k).runResult r rest = (s.runResult r rest).withOwn evs x m k := by
    intro r rest
    have he : (s.withOwn evs x m k).emits r = s.emits r := rfl
    have hf : (s.withOwn evs x m k).fifoFull = s.fifoFull := rfl
    have hd : (s.withOwn evs x m k).done = s.done := rfl
    unfold State.runResult
    rw [he, hf, hd]
    split_ifs <;> rfl
  have hd : (s.withOwn evs x m k).done = s.done := rfl
  have hn : (s.withOwn evs x m k).nk = s.nk := rfl
  unfold State.runStep
  rw [hp, hd, hn]
  split
  · exact hr _ _
  · split_ifs
    · rfl
    · exact hc

/-- A command does the same whatever the model's own fields hold, and keeps them. -/
theorem exec_withOwn {i : Instr} {t : State} (evs : List Event) (x : Word) (m k : Nat) (h : exec i s = .next t) :
    exec i (s.withOwn evs x m k) = .next (t.withOwn evs x m k) := by
  cases i
  case nop => cases h; rfl
  case gcd => cases h; rfl
  case nknext d =>
    rw [exec_nknext] at h ⊢
    have hn : (s.withOwn evs x m k).nk = s.nk := rfl
    rw [hn]
    split_ifs at h ⊢
    · cases h
      rcases nkSeek s.nk with ⟨q, _ | _⟩ <;> rfl
    · cases h; rfl
  case run =>
    by_cases hq : s.seq = .runLoop
    · rw [exec_run_loop s hq] at h
      cases h
      exact (exec_run_loop (s.withOwn evs x m k) hq).trans (congrArg _ (s.runStep_withOwn evs x m k))
    · rw [exec_run_first s hq] at h
      rw [exec_run_first (s.withOwn evs x m k) hq]
      exact s.withDegree_withOwn (fun _ => rfl) h
  case minpe | minpr =>
    simp only [exec_minpe, exec_minpr] at h ⊢
    exact s.withDegree_withOwn (fun n => s.finishMinPoly_withOwn _ n _ _ evs x m k) h
  all_goals
    simp only [exec_add, exec_mul, exec_sqr, exec_pow, exec_gen, exec_recip, exec_classify, exec_nkinit] at h ⊢
    exact s.withDegree_withOwn (fun _ => rfl) h

/-- A turn of the core does the same whatever the model's own fields hold, and keeps them. -/
theorem coreStep_withOwn {t : State} (evs : List Event) (x : Word) (m k : Nat) (h : coreStep s = .next t) :
    coreStep (s.withOwn evs x m k) = .next (t.withOwn evs x m k) := by
  rcases coreStep_cases s h with ⟨hq, rfl⟩ | ⟨hq, i, hd, h⟩ | ⟨hq, ⟨e, he⟩, rfl⟩
  · exact coreStep_idle _ hq
  · exact (coreStep_ok (s.withOwn evs x m k) hq hd).trans (exec_withOwn s evs x m k h)
  · exact coreStep_error (s.withOwn evs x m k) hq he

end Sys2Proof.Machine
end

