-- ==== Sys2Proof/Laws/Galois.lean ====
section
/-! SUPPORT. Small facts of the units: the closure check, the lengths of the coefficient array, one pass of each loop. -/

namespace Sys2Proof.Machine

open Sys2Proof

/-- The closure check as a statement (42_minpoly.md R143). -/
theorem orbitCloses_iff {n : Nat} (F : List (BitVec n)) : orbitCloses F = true ↔ ∀ f ∈ F, f = 0#n ∨ f = 1#n := by
  simp [orbitCloses, List.all_eq_true]

theorem minPoly_closed {n : Nat} {root R : BitVec n} (h : ∀ f ∈ orbitProduct root R, f = 0#n ∨ f = 1#n) :
    minPoly root R = some (collapse (orbitProduct root R)) := by
  simp [minPoly, (orbitCloses_iff _).2 h]

theorem minPoly_open {n : Nat} {root R : BitVec n} (h : ¬ ∀ f ∈ orbitProduct root R, f = 0#n ∨ f = 1#n) :
    minPoly root R = none := by
  simp [minPoly, mt (orbitCloses_iff _).1 h]

theorem minPoly_some_iff {n : Nat} {root R : BitVec n} {m : BitVec (n + 1)} :
    minPoly root R = some m ↔
      (∀ f ∈ orbitProduct root R, f = 0#n ∨ f = 1#n) ∧ m = collapse (orbitProduct root R) := by
  by_cases h : ∀ f ∈ orbitProduct root R, f = 0#n ∨ f = 1#n
  · rw [minPoly_closed h]
    exact ⟨fun e => ⟨h, (Option.some.inj e).symm⟩, fun e => congrArg some e.2.symm⟩
  · rw [minPoly_open h]
    exact ⟨fun e => (Option.some_ne_none m e.symm).elim, fun e => absurd e.1 h⟩

/-- The coefficient array keeps its length through the loop (42_minpoly.md R142). -/
theorem timesLinear_length {n : Nat} (r R : BitVec n) (F : List (BitVec n)) : (timesLinear r R F).length = F.length := by
  simp [timesLinear]

theorem orbitLoop_length {n : Nat} (R : BitVec n) (k : Nat) (F : List (BitVec n)) (r : BitVec n) :
    (orbitLoop R k F r).length = F.length := by
  induction k generalizing F r with
  | zero => rfl
  | succ k ih => rw [orbitLoop, ih, timesLinear_length]

/-- A coefficient after one repetition: the coefficient below it, and its own times r. -/
theorem timesLinear_getD {n : Nat} (r R : BitVec n) (F : List (BitVec n)) (j : Nat) (h : j < F.length) :
    (timesLinear r R F).getD j 0#n = (0#n :: F).getD j 0#n ^^^ gfMul (F.getD j 0#n) r R := by
  have h2 : j < (0#n :: F).length := by simp; omega
  simp [timesLinear, List.getD_eq_getElem?_getD, List.getElem?_zipWith, List.getElem?_eq_getElem h,
    List.getElem?_eq_getElem h2]

/-- The multiplier's loop with the accumulator taken out (41_field_arith.md R123). -/
theorem gfMulFrom_acc {n : Nat} (b R : BitVec n) (k i : Nat) (acc t : BitVec n) :
    gfMulFrom b R k i acc t = acc ^^^ gfMulFrom b R k i 0#n t := by
  induction k generalizing i acc t with
  | zero => simp [gfMulFrom]
  | succ k ih =>
    rw [gfMulFrom, gfMulFrom, ih, ih (acc := if b.getLsbD i then 0#n ^^^ t else 0#n)]
    cases b.getLsbD i <;> simp [BitVec.xor_assoc]

/-- The shift step is additive (41_field_arith.md R122). -/
theorem gfMulx_xor {n : Nat} (t u R : BitVec n) : gfMulx (t ^^^ u) R = gfMulx t R ^^^ gfMulx u R := by
  unfold gfMulx
  rw [BitVec.msb_xor]
  have e : (t ^^^ u) <<< 1 = t <<< 1 ^^^ u <<< 1 := BitVec.shiftLeft_xor_distrib t u 1
  cases t.msb <;> cases u.msb <;> simp [e, BitVec.xor_assoc]
  exact BitVec.xor_comm _ _

/-- One pass of the gcd loop (43_classify.md R160). -/
theorem gcdLoop_succ (k a b : Nat) : gcdLoop (k + 1) a b = if b = 0 then a else gcdLoop k b (a % b) := rfl

end Sys2Proof.Machine
end

