-- ==== Sys2Proof/Laws/Necklace.lean ====
section
/-! SUPPORT. Digits of the necklace string, the search for the last 0, the copy of the period, and what the generator
keeps (40_necklace.md R103). -/

namespace Sys2Proof.Machine

open Sys2Proof

/-! Digits -/

theorem digit_pos (a : Word) (i : Nat) (h : 1 ≤ i) : digit a i = a.getLsbD (i - 1) := by
  simp [digit, Nat.one_le_iff_ne_zero.1 h]

/-- Reading a digit after a digit write; positions 1..64 are stored. -/
theorem digit_setDigit (a : Word) (i j : Nat) (b : Bool) (hi : 1 ≤ i) (hj : 1 ≤ j) (hj64 : j ≤ 64) :
    digit (setDigit a i b) j = if j = i then b else digit a j := by
  rw [digit_pos _ _ hj, digit_pos _ _ hj]
  have h64 : j - 1 < 64 := by omega
  have e : (j - 1 < i - 1 ∨ ¬ j - 1 - (i - 1) = 0) ↔ j ≠ i := by omega
  unfold setDigit
  cases b
  · by_cases hji : j = i
    · subst hji; simp [h64]
    · have : (j - 1 < i - 1 ∨ ¬ j - 1 - (i - 1) = 0) := e.2 hji
      simp only [Bool.false_eq_true, if_false, hji, BitVec.getLsbD_and, BitVec.getLsbD_not, BitVec.getLsbD_shiftLeft,
        BitVec.getLsbD_one, h64]
      rcases this with h | h <;> simp [h]
  · by_cases hji : j = i
    · subst hji; simp [h64]
    · have : (j - 1 < i - 1 ∨ ¬ j - 1 - (i - 1) = 0) := e.2 hji
      simp only [if_true, hji, if_false, BitVec.getLsbD_or, BitVec.getLsbD_shiftLeft, BitVec.getLsbD_one, h64]
      rcases this with h | h <;> simp [h]

/-- Digits from 65 on are not stored. -/
theorem digit_ge (a : Word) (j : Nat) (h : 64 < j) : digit a j = false := by
  rw [digit_pos _ _ (by omega)]; exact BitVec.getLsbD_of_ge a _ (by omega)

/-- Two words with the same digits are the same word. -/
theorem eq_of_digits {a b : Word} (h : ∀ j, 1 ≤ j → j ≤ 64 → digit a j = digit b j) : a = b := by
  apply BitVec.eq_of_getLsbD_eq
  intro i hi
  have := h (i + 1) (by omega) (by omega)
  rwa [digit_pos _ _ (by omega), digit_pos _ _ (by omega)] at this

/-- No digit above position n: the word fits in n bits. -/
theorem high_zero_iff (a : Word) (n : Nat) : a >>> n = 0#64 ↔ ∀ j, n < j → digit a j = false := by
  constructor
  · intro h j hj
    rw [digit_pos _ _ (by omega)]
    have := congrArg (BitVec.getLsbD · (j - 1 - n)) h
    simp only [BitVec.getLsbD_ushiftRight, BitVec.getLsbD_zero] at this
    rwa [show n + (j - 1 - n) = j - 1 by omega] at this
  · intro h
    apply BitVec.eq_of_getLsbD_eq
    intro i hi
    have := h (n + i + 1) (by omega)
    rw [digit_pos _ _ (by omega)] at this
    simpa using this

/-! The search for the last digit that is not 1 -/

theorem lastZero_le (a : Word) (t : Nat) : lastZero a t ≤ t := by
  induction t with
  | zero => simp [lastZero]
  | succ t ih => unfold lastZero; split <;> omega

theorem lastZero_zero (a : Word) (t : Nat) (h : lastZero a t ≠ 0) : digit a (lastZero a t) = false := by
  induction t with
  | zero => simp [lastZero] at h
  | succ t ih =>
    unfold lastZero at h ⊢
    split at h
    · rename_i hd; rw [if_pos hd]; exact ih h
    · rename_i hd; rw [if_neg hd]; simpa using hd

theorem lastZero_above (a : Word) (t j : Nat) (h1 : lastZero a t < j) (h2 : j ≤ t) : digit a j = true := by
  induction t with
  | zero => omega
  | succ t ih =>
    unfold lastZero at h1
    split at h1
    · rename_i hd
      rcases Nat.lt_or_eq_of_le h2 with h | rfl
      · exact ih h1 (by omega)
      · exact hd
    · omega

/-- The position found is the only one with these properties. -/
theorem lastZero_eq (a : Word) (n t : Nat) (h1 : t ≤ n) (h2 : t = 0 ∨ digit a t = false)
    (h3 : ∀ j, t < j → j ≤ n → digit a j = true) : lastZero a n = t := by
  rcases Nat.lt_trichotomy (lastZero a n) t with h | h | h
  · have := lastZero_above a n t h h1
    rcases h2 with rfl | h2
    · omega
    · rw [h2] at this; cases this
  · exact h
  · have := h3 _ h (lastZero_le a n)
    rw [lastZero_zero a n (by omega)] at this; cases this

/-! The copy of the period -/

/-- Positions before the copy keep their digit. -/
theorem copyPeriod_before (t k j : Nat) (a : Word) (i : Nat) (hj : 1 ≤ j) (hi : 1 ≤ i) (hij : i < j) :
    digit (copyPeriod t k j a) i = digit a i := by
  induction k generalizing j a with
  | zero => rfl
  | succ k ih =>
    rw [copyPeriod, ih (j + 1) _ (by omega) (by omega)]
    by_cases h64 : i ≤ 64
    · rw [digit_setDigit _ _ _ _ hj hi h64, if_neg (by omega)]
    · rw [digit_ge _ _ (by omega), digit_ge _ _ (by omega)]

/-- Positions behind the copy keep their digit. -/
theorem copyPeriod_behind (t k j : Nat) (a : Word) (i : Nat) (hj : 1 ≤ j) (hi : j + k ≤ i) :
    digit (copyPeriod t k j a) i = digit a i := by
  induction k generalizing j a with
  | zero => rfl
  | succ k ih =>
    rw [copyPeriod, ih (j + 1) _ (by omega) (by omega)]
    by_cases h64 : i ≤ 64
    · rw [digit_setDigit _ _ _ _ hj (by omega) h64, if_neg (by omega)]
    · rw [digit_ge _ _ (by omega), digit_ge _ _ (by omega)]

/-- A copied position has the digit t before it. -/
theorem copyPeriod_copied (t k j : Nat) (a : Word) (i : Nat) (ht : 1 ≤ t) (hj : t < j) (h1 : j ≤ i) (h2 : i < j + k)
    (h64 : j + k ≤ 65) :
    digit (copyPeriod t k j a) i = digit (copyPeriod t k j a) (i - t) := by
  induction k generalizing j a with
  | zero => omega
  | succ k ih =>
    rw [copyPeriod]
    rcases Nat.lt_or_eq_of_le h1 with h | rfl
    · exact ih (j + 1) _ (by omega) (by omega) (by omega) (by omega)
    · rw [copyPeriod_before _ _ _ _ _ (by omega) (by omega) (by omega),
        copyPeriod_before _ _ _ _ _ (by omega) (by omega) (by omega),
        digit_setDigit _ _ _ _ (by omega) (by omega) (by omega), if_pos rfl,
        digit_setDigit _ _ _ _ (by omega) (by omega) (by omega), if_neg (by omega)]

/-! What a step of the generator keeps -/

/-- A step keeps NK_N; it keeps NK_ST where it goes on, and NK_A and NK_P where it stops. -/
theorem nkStep_cases (k : Necklace) :
    (nkStep k = ({ k with st := .exhausted }, false) ∧ lastZero k.a k.n.toNat = 0) ∨
    ∃ t a', 1 ≤ t ∧ t ≤ k.n.toNat ∧ lastZero k.a k.n.toNat = t ∧
      a' = copyPeriod t (k.n.toNat - t) (t + 1) (setDigit k.a t true) ∧
      nkStep k = (⟨a', BitVec.ofNat 7 t, k.n, k.st⟩, true) := by
  unfold nkStep
  have := lastZero_le k.a k.n.toNat
  cases h : lastZero k.a k.n.toNat with
  | zero => exact .inl ⟨rfl, rfl⟩
  | succ t => exact .inr ⟨t + 1, _, by omega, by omega, rfl, rfl, rfl⟩

/-- Digits above NK_N are not touched. -/
theorem nkStep_above (k : Necklace) (j : Nat) (h : k.n.toNat < j) : digit (nkStep k).1.a j = digit k.a j := by
  rcases nkStep_cases k with ⟨h1, -⟩ | ⟨t, a', h1, h2, -, rfl, h3⟩
  · rw [h1]
  · rw [h3]
    simp only
    rw [copyPeriod_behind _ _ _ _ _ (by omega) (by omega)]
    by_cases h64 : j ≤ 64
    · rw [digit_setDigit _ _ _ _ h1 (by omega) h64, if_neg (by omega)]
    · rw [digit_ge _ _ (by omega), digit_ge _ _ (by omega)]

/-- Whatever the search answers: NK_N and the digits above it are kept; a candidate found has NK_P = NK_N and its last
digit 1, and NK_ST is kept; otherwise NK_ST is EXHAUSTED. -/
theorem nkSeekFrom_frame (steps : Nat) (k : Necklace) :
    (nkSeekFrom steps k).1.n = k.n ∧
    (∀ j, k.n.toNat < j → digit (nkSeekFrom steps k).1.a j = digit k.a j) ∧
    ((nkSeekFrom steps k).2 = true → (nkSeekFrom steps k).1.st = k.st ∧ (nkSeekFrom steps k).1.p = k.n ∧
      digit (nkSeekFrom steps k).1.a k.n.toNat = true) ∧
    ((nkSeekFrom steps k).2 = false → (nkSeekFrom steps k).1.st = .exhausted) := by
  induction steps generalizing k with
  | zero => simp [nkSeekFrom]
  | succ steps ih =>
    have ha := nkStep_above k
    rw [nkSeekFrom]
    rcases nkStep_cases k with ⟨h1, -⟩ | ⟨t, a', h1, h2, -, -, h3⟩
    · simp [h1]
    · simp only [h3] at ha ⊢
      split
      · rename_i hacc
        simp only [nkAccepted, Bool.and_eq_true, decide_eq_true_eq] at hacc
        exact ⟨rfl, ha, fun _ => ⟨rfl, hacc.1, hacc.2⟩, fun h => by cases h⟩
      · obtain ⟨e1, e2, e3, e4⟩ := ih ⟨a', BitVec.ofNat 7 t, k.n, k.st⟩
        exact ⟨e1, fun j hj => (e2 j hj).trans (ha j hj), e3, e4⟩

/-- The same of the search itself. -/
theorem nkSeek_frame {k k' : Necklace} {found : Bool} (h : nkSeek k = (k', found)) :
    k'.n = k.n ∧ (∀ j, k.n.toNat < j → digit k'.a j = digit k.a j) ∧
    (found = true → k'.st = k.st ∧ k'.p = k.n ∧ digit k'.a k.n.toNat = true) ∧
    (found = false → k'.st = .exhausted) := by
  have := nkSeekFrom_frame (2 ^ 64) k
  unfold nkSeek at h
  rw [h] at this
  exact this

/-- The period marker stays in 1..n. -/
theorem nkSeekFrom_period (steps : Nat) (k : Necklace) (h1 : 1 ≤ k.p.toNat) (h2 : k.p.toNat ≤ k.n.toNat) :
    1 ≤ (nkSeekFrom steps k).1.p.toNat ∧ (nkSeekFrom steps k).1.p.toNat ≤ k.n.toNat := by
  induction steps generalizing k with
  | zero => exact ⟨h1, h2⟩
  | succ steps ih =>
    have hn := k.n.isLt
    rw [nkSeekFrom]
    rcases nkStep_cases k with ⟨h, -⟩ | ⟨t, a', ht1, ht2, -, -, h⟩
    · simp only [h]; exact ⟨h1, h2⟩
    · have hp : (BitVec.ofNat 7 t).toNat = t := by
        rw [BitVec.toNat_ofNat]; exact Nat.mod_eq_of_lt (by omega)
      simp only [h]
      split
      · simp only [hp]; exact ⟨ht1, ht2⟩
      · exact ih ⟨a', BitVec.ofNat 7 t, k.n, k.st⟩ (by rw [hp]; exact ht1) (by rw [hp]; exact ht2)

/-! The search ends: every step makes the string greater -/

/-- The first n digits read as a number, a[1] most significant: string order is number order. -/
def lexValue (a : Word) : Nat → Nat
  | 0 => 0
  | n + 1 => 2 * lexValue a n + (digit a (n + 1)).toNat

theorem lexValue_lt (a : Word) (n : Nat) : lexValue a n < 2 ^ n := by
  induction n with
  | zero => simp [lexValue]
  | succ n ih =>
    have : (digit a (n + 1)).toNat ≤ 1 := Bool.toNat_le _
    rw [lexValue, Nat.pow_succ]; omega

theorem lexValue_congr {a b : Word} (n : Nat) (h : ∀ j, 1 ≤ j → j ≤ n → digit a j = digit b j) :
    lexValue a n = lexValue b n := by
  induction n with
  | zero => rfl
  | succ n ih => rw [lexValue, lexValue, ih fun j h1 h2 => h j h1 (by omega), h (n + 1) (by omega) (by omega)]

theorem lexValue_mono {a b : Word} {t n : Nat} (ht : t ≤ n) (h : lexValue a t < lexValue b t) :
    lexValue a n < lexValue b n := by
  induction n with
  | zero => rw [Nat.le_zero.1 ht] at h; exact h
  | succ n ih =>
    rcases Nat.lt_or_eq_of_le ht with hlt | rfl
    · have := ih (by omega)
      have h1 : (digit a (n + 1)).toNat ≤ 1 := Bool.toNat_le _
      rw [lexValue, lexValue]; omega
    · exact h

/-- A step that goes on makes the string greater. -/
theorem nkStep_greater {k k' : Necklace} (h64 : k.n.toNat ≤ 64) (h : nkStep k = (k', true)) :
    lexValue k.a k.n.toNat < lexValue k'.a k.n.toNat := by
  rcases nkStep_cases k with ⟨h1, -⟩ | ⟨t, a', h1, h2, hz, rfl, h3⟩
  · rw [h1] at h; cases h
  · rw [h3] at h; cases h
    obtain ⟨t, rfl⟩ : ∃ u, t = u + 1 := ⟨t - 1, by omega⟩
    apply lexValue_mono h2
    have hd : digit k.a (t + 1) = false := by
      have := lastZero_zero k.a k.n.toNat (by omega); rwa [hz] at this
    have hb : ∀ j, 1 ≤ j → j ≤ t + 1 →
        digit (copyPeriod (t + 1) (k.n.toNat - (t + 1)) (t + 1 + 1) (setDigit k.a (t + 1) true)) j
          = if j = t + 1 then true else digit k.a j := fun j hj1 hj2 => by
      rw [copyPeriod_before _ _ _ _ _ (by omega) hj1 (by omega), digit_setDigit _ _ _ _ (by omega) hj1 (by omega)]
    have hc := lexValue_congr t fun j hj1 hj2 => (hb j hj1 (by omega)).trans (if_neg (by omega))
    rw [lexValue, lexValue, hd, hb (t + 1) (by omega) le_rfl, if_pos rfl, hc]
    simp

/-- One more permitted step makes no difference once the steps are as many as the strings that are left. -/
theorem nkSeekFrom_stable (m : Nat) (k : Necklace) (h64 : k.n.toNat ≤ 64)
    (hm : 2 ^ k.n.toNat - lexValue k.a k.n.toNat ≤ m) : nkSeekFrom (m + 1) k = nkSeekFrom m k := by
  induction m generalizing k with
  | zero => have := lexValue_lt k.a k.n.toNat; omega
  | succ m ih =>
    rw [nkSeekFrom, nkSeekFrom]
    rcases nkStep_cases k with ⟨h, -⟩ | ⟨t, a', -, -, -, -, h⟩
    · rw [h]
    · have hg := nkStep_greater h64 h
      rw [h]
      simp only at hg ⊢
      rw [ih ⟨a', BitVec.ofNat 7 t, k.n, k.st⟩ h64 (by simp only; omega)]

end Sys2Proof.Machine
end

