-- ==== Sys2Proof/Laws/PerInstr.lean ====
section
/-! SUPPORT. The family Encoding: one lemma per command about its word. -/

namespace Sys2Proof.Laws.Encoding

open Sys2Proof

/-- The word of a command has RSV = 0 and OP the command's own, and the fields the opcode map takes from that word are
the command's: the command is read back from the word but for the register range (30_encoding.md R80, R82, R87). -/
def Statement (i : Instr) : Prop :=
  rsvField (encode i) = 0#44 ∧ opField (encode i) = i.opcode ∧
    instrOfOp (opField (encode i)) (rdField (encode i)) (raField (encode i)) (rbField (encode i)) = some i

/-- The statement for any command; the lemmas below name its cases. -/
theorem holds (i : Instr) : Statement i := by
  obtain ⟨h1, h2, h3, h4, h5⟩ := encode_fields i
  exact ⟨h5, h1, by rw [h1, h2, h3, h4]; exact instrOfOp_fields i⟩

theorem nop : Statement .nop := holds _
theorem add (d a b : RegNum) : Statement (.add d a b) := holds _
theorem mul (d a b : RegNum) : Statement (.mul d a b) := holds _
theorem sqr (d a : RegNum) : Statement (.sqr d a) := holds _
theorem pow (d a b : RegNum) : Statement (.pow d a b) := holds _
theorem gen (d : RegNum) : Statement (.gen d) := holds _
theorem minpe (d a : RegNum) : Statement (.minpe d a) := holds _
theorem minpr (d a : RegNum) : Statement (.minpr d a) := holds _
theorem gcd (d a b : RegNum) : Statement (.gcd d a b) := holds _
theorem recip (d a : RegNum) : Statement (.recip d a) := holds _
theorem classify (d a b : RegNum) : Statement (.classify d a b) := holds _
theorem nkinit : Statement .nkinit := holds _
theorem nknext (d : RegNum) : Statement (.nknext d) := holds _
theorem run : Statement .run := holds _

end Sys2Proof.Laws.Encoding
end

