-- ==== Sys2Proof/Laws/Window.lean ====
section
/-! SUPPORT. The register map by offset, what a transaction and an event answer, and what each write can do. -/

namespace Sys2Proof.Machine

open Sys2Proof

variable (s : State)

/-- The integer form of the command word is the fields joined (30_encoding.md R80). -/
theorem commandWord_eq (op : BitVec 8) (d a b : RegNum) : commandWord op d a b = 0#44 ++ b ++ a ++ d ++ op := by
  apply BitVec.eq_of_getLsbD_eq
  intro i hi
  iterate 4 rw [BitVec.getLsbD_append]
  simp [commandWord, hi]
  grind

/-! The map (20_memory.md R61) -/

/-- An access of 64 bits with all lanes is performed exactly at the multiples of 8. -/
theorem performed_full (off : WinOffset) : (Access.mk off 8 0xFF#8).performed = decide (off.toNat % 8 = 0) := by
  revert off; decide +kernel

/-- What an access that is performed is (20_memory.md R64). -/
theorem Access.performed_iff (acc : Access) :
    acc.performed = true ↔ acc.width = 8 ∧ acc.off.toNat % 8 = 0 ∧ acc.lanes = 0xFF#8 := by
  have h : acc.off.extractLsb' 0 3 = 0#3 ↔ acc.off.toNat % 8 = 0 := by
    generalize acc.off = off; revert off; decide +kernel
  simp [Access.performed, h, and_assoc]

/-- The locked registers stand exactly at the locked offsets. -/
theorem winRegAt_locked (off : WinOffset) (h : off.toNat % 8 = 0) :
    (winRegAt off).locked = true ↔ LockedOffset off := by
  have : ∀ o : BitVec 9, o.toNat % 8 = 0 → ((winRegAt o).locked = true ↔ o.toNat % 8 = 0 ∧
      (0x050 ≤ o.toNat ∧ o.toNat ≤ 0x078 ∨ 0x100 ≤ o.toNat ∧ o.toNat < 0x180)) := by decide +kernel
  exact this off h

/-- The reserved ranges hold no register. -/
theorem winRegAt_reserved (off : WinOffset) (h : ReservedOffset off) : winRegAt off = .reserved := by
  have : ∀ o : BitVec 9, (o.toNat % 8 = 0 ∧
      (0x0A8 ≤ o.toNat ∧ o.toNat ≤ 0x0B8 ∨ 0x0E0 ≤ o.toNat ∧ o.toNat ≤ 0x0F8 ∨ 0x180 ≤ o.toNat)) →
      winRegAt o = .reserved := by decide +kernel
  exact this off h

/-- The operand words stand at 0x100 to 0x17F. -/
theorem winRegAt_operand (off : WinOffset) (h1 : 0x100 ≤ off.toNat) (h2 : off.toNat < 0x180) :
    winRegAt off = .vLo (off.extractLsb' 4 3) ∨ winRegAt off = .vHi (off.extractLsb' 4 3) := by
  unfold winRegAt
  rw [if_neg (by omega), if_pos h2]
  split <;> simp

/-! Two bits of STATUS that other rules name (10_state.md R24) -/

theorem status_stall : (s.view .status).getLsbD 6 = s.stall := by
  simp only [State.view, State.statusWord]
  iterate 8 rw [BitVec.getLsbD_append]
  simp

theorem status_running : (s.view .status).getLsbD 7 = s.running := by
  simp only [State.view, State.statusWord]
  iterate 8 rw [BitVec.getLsbD_append]
  simp

/-! Transactions and events -/

theorem hostStep_write (off : WinOffset) (w : Word) (h : off.toNat % 8 = 0) :
    hostStep (.write ⟨off, 8, 0xFF#8⟩ w) s = .next (s.tick.writeReg off (winRegAt off) w) := by
  simp [hostStep, performed_full, h]

theorem hostStep_read (off : WinOffset) (h : off.toNat % 8 = 0) :
    hostStep (.read ⟨off, 8, 0xFF#8⟩) s = .next (s.readReg (winRegAt off)) := by
  simp [hostStep, performed_full, h]

/-- Everything an event can answer. -/
theorem eventStep_cases {ev : Event} {t : State} (h : eventStep ev s = .next t) :
    ev = .core ∧ coreStep s.tick = .next t ∨ ev = .rst ∧ t = s.tick.toReset ∨
    (∃ acc, ev = .host (.read acc) ∧ acc.performed = true ∧ t = s.readReg (winRegAt acc.off)) ∨
    ∃ acc w, ev = .host (.write acc w) ∧ acc.performed = true ∧ t = s.tick.writeReg acc.off (winRegAt acc.off) w := by
  cases ev with
  | core => exact .inl ⟨rfl, h⟩
  | rst => cases h; exact .inr (.inl ⟨rfl, rfl⟩)
  | host tx =>
    refine .inr (.inr ?_)
    cases tx with
    | read acc =>
      simp only [eventStep, hostStep] at h
      split at h
      · rename_i hp; cases h; exact .inl ⟨acc, rfl, hp, rfl⟩
      · cases h
    | write acc w =>
      simp only [eventStep, hostStep] at h
      split at h
      · rename_i hp; cases h; exact .inr ⟨acc, w, rfl, hp, rfl⟩
      · cases h

/-- Everything a step can do, by its event; the rest of the schedule is that of the state the event sees. -/
theorem step_cases {t : State} (h : step s = .next t) :
    s.schedule = [] ∧ coreStep s.tick = .next t ∨
    ∃ ev evs, s.schedule = ev :: evs ∧ eventStep ev { s with schedule := evs } = .next t := by
  cases hs : s.schedule with
  | nil => exact .inl ⟨rfl, (step_nil s hs).symm.trans h⟩
  | cons ev evs => exact .inr ⟨ev, evs, rfl, (step_cons s hs).symm.trans h⟩

/-- A read changes only what the host has got and the count of draws. -/
theorem State.readReg_eq (r : WinReg) :
    s.readReg r = { s with rdata := (s.readReg r).rdata, draws := (s.readReg r).draws } := by
  unfold State.readReg; split <;> rfl

/-! Writes (10_state.md R23, R46, 20_memory.md R67) -/

/-- What a write of CTRL can do: a reset, or an ABORT and a CLRERR each where its bit is set. -/
theorem State.writeCtrl_cases (w : Word) :
    w.getLsbD 1 = true ∧ s.writeCtrl w = s.toReset ∨
    w.getLsbD 1 = false ∧ ∃ t, (t = s ∨ s.running = true ∧ t = { s with aborted := s.aborted || !s.done, done := true }) ∧
      (s.writeCtrl w = t ∨ s.writeCtrl w = { t with errRec := none }) := by
  unfold State.writeCtrl
  cases h1 : w.getLsbD 1
  · refine .inr ⟨rfl, if w.getLsbD 0 then s.abort else s, ?_, ?_⟩
    · cases w.getLsbD 0
      · exact .inl rfl
      · unfold State.abort
        cases hr : s.running
        · exact .inl (by simp)
        · exact .inr ⟨rfl, by simp⟩
    · cases w.getLsbD 2
      · exact .inl rfl
      · exact .inr rfl
  · exact .inl ⟨rfl, rfl⟩

/-- What storing a word leaves unchanged, whatever the register. -/
theorem State.store_frame (w : Word) (r : WinReg) :
    (s.store w r).seq = s.seq ∧ (s.store w r).cmd = s.cmd ∧ (s.store w r).errRec = s.errRec ∧
    (s.store w r).fifo = s.fifo ∧ (s.store w r).fifoDepth = s.fifoDepth ∧ (s.store w r).pend = s.pend ∧
    (s.store w r).done = s.done ∧ (s.store w r).aborted = s.aborted ∧ (s.store w r).nk = s.nk ∧
    (s.store w r).emitCount = s.emitCount ∧ (s.store w r).cmdDone = s.cmdDone ∧ (s.store w r).flags = s.flags := by
  cases r <;> exact ⟨rfl, rfl, rfl, rfl, rfl, rfl, rfl, rfl, rfl, rfl, rfl, rfl⟩

/-- Storing in a register that is not locked changes IRQ_EN at most. -/
theorem State.store_unlocked (w : Word) (r : WinReg) (h : r.locked = false) :
    s.store w r = s ∨ r = .irqEn ∧ s.store w r = { s with irqEn := w.extractLsb' 0 3 } := by
  cases r <;> simp [WinReg.locked] at h <;> simp [State.store]

/-- Everything a write can do, by its register. -/
theorem State.writeReg_cases (off : WinOffset) (r : WinReg) (w : Word) :
    r = .ctrl ∧ s.writeReg off r w = s.writeCtrl w ∨
    r = .cmd ∧ s.seq = .idle ∧ s.writeReg off r w = s.accept w ∨
    r = .cmd ∧ s.seq ≠ .idle ∧ s.writeReg off r w = s.raiseError .cmdWhileBusy 0x030#64 w ∨
    r = .irqStatus ∧ s.writeReg off r w = { s with cmdDone := s.cmdDone && !w.getLsbD 0 } ∨
    r = .resPop ∧ s.writeReg off r w = { s with fifo := s.fifo.tail } ∨
    r.locked = true ∧ s.seq ≠ .idle ∧ s.writeReg off r w = s.raiseError .writeWhileBusy (off.setWidth 64) w ∨
    r.locked = true ∧ s.seq = .idle ∧ s.writeReg off r w = s.store w r ∨
    r.locked = false ∧ r ≠ .cmd ∧ s.writeReg off r w = s.store w r := by
  by_cases hi : r = .irqStatus
  · subst hi
    refine .inr (.inr (.inr (.inl ⟨rfl, ?_⟩)))
    simp only [State.writeReg]
    cases w.getLsbD 0 <;> simp
  · cases r <;> by_cases hq : s.seq = .idle <;>
      simp_all [State.writeReg, State.writeCmd, State.popFifo, WinReg.locked, State.store, State.busy]

end Sys2Proof.Machine
end

