-- ==== Sys2Proof/Machine/HostLines.lean ====
section
/-! DEFINITION. The assembler's command lines, the host lines and the pseudo-instructions of 30_encoding.md R91 to R93,
as text and as events of the schedule. -/

namespace Sys2Proof.Machine

open Sys2Proof

/-- The offset of a register (20_memory.md R61); for the reserved ranges, the first reserved offset. -/
def WinReg.offset : WinReg → WinOffset
  | .id => 0x000 | .ctrl => 0x008 | .status => 0x010 | .errCause => 0x018 | .errInfo => 0x020 | .errData => 0x028
  | .cmd => 0x030 | .flags => 0x038 | .irqEn => 0x040 | .irqStatus => 0x048 | .degree => 0x050 | .redLo => 0x058
  | .redHi => 0x060 | .groupOrder => 0x068 | .ceiling => 0x070 | .mode => 0x078 | .irrCount => 0x080
  | .primCount => 0x088 | .emitCount => 0x090 | .nkA => 0x098 | .nkCtl => 0x0A0 | .reserved => 0x0A8
  | .resPolyLo => 0x0C0 | .resInfo => 0x0C8 | .resOrbit => 0x0D0 | .resPop => 0x0D8
  | .vLo k => 0x100 + (k.setWidth 9 <<< 4) | .vHi k => 0x108 + (k.setWidth 9 <<< 4)

/-- The aligned 64-bit access with all lanes at an offset (20_memory.md R64). -/
def fullAccess (off : WinOffset) : Access := ⟨off, 8, 0xFF#8⟩

/-- `wr NAME, value` (30_encoding.md R92). -/
def wr (r : WinReg) (w : Word) : Event := .host (.write (fullAccess r.offset) w)

/-- `rd NAME` (30_encoding.md R92). -/
def rd (r : WinReg) : Event := .host (.read (fullAccess r.offset))

/-- A command line stands for `MemWrite(CMD, 8, word)` and does not wait (30_encoding.md R91). -/
def issue (i : Instr) : Event := wr .cmd (encode i)

/-- `li vk, imm` (30_encoding.md R93). -/
def li (k : BitVec 3) (imm : Operand) : List Event := [wr (.vLo k) (loWord imm), wr (.vHi k) (hiWord imm)]

/-- `clr vd` (30_encoding.md R93). -/
def clr (d : RegNum) : List Event := [issue (.add d d d)]

/-- `inv vd, va, vt` (30_encoding.md R93), V[t] being loaded first with 2^n - 2. -/
def inv (d a t : RegNum) : List Event := [issue (.pow d a t)]

/-- `cmd X` (30_encoding.md R93) for a command of one core step, in the schedule where that step comes before the first
poll of STATUS: the `wait` line then polls once. -/
def cmdLine (i : Instr) : List Event := [issue i, .core, rd .status]

/-- A register's name in the assembler (30_encoding.md R91). -/
def regName (r : RegNum) : String := "v" ++ toString r.toNat

/-- A command line: the lower-case mnemonic and the operands in the order RD, RA, RB (30_encoding.md R91). -/
def asmLine : Instr → String
  | .nop => "nop"
  | .add d a b => "add " ++ regName d ++ ", " ++ regName a ++ ", " ++ regName b
  | .mul d a b => "mul " ++ regName d ++ ", " ++ regName a ++ ", " ++ regName b
  | .sqr d a => "sqr " ++ regName d ++ ", " ++ regName a
  | .pow d a b => "pow " ++ regName d ++ ", " ++ regName a ++ ", " ++ regName b
  | .gen d => "gen " ++ regName d
  | .minpe d a => "minpe " ++ regName d ++ ", " ++ regName a
  | .minpr d a => "minpr " ++ regName d ++ ", " ++ regName a
  | .gcd d a b => "gcd " ++ regName d ++ ", " ++ regName a ++ ", " ++ regName b
  | .recip d a => "recip " ++ regName d ++ ", " ++ regName a
  | .classify d a b => "class " ++ regName d ++ ", " ++ regName a ++ ", " ++ regName b
  | .nkinit => "nkinit"
  | .nknext d => "nknext " ++ regName d
  | .run => "run"

end Sys2Proof.Machine
end

