-- ==== Sys2Proof/Tests/Slice0.lean ====
section
/-! SUPPORT. Tests. Expected values are those of spec/95_test_vectors.md and of the examples in the rules, or words
written out bit by bit from 30_encoding.md R80 and R82; none is the model's own answer. -/

namespace Sys2Proof.Tests

open Sys2Proof Sys2Proof.Machine

/-! Well-formedness: an ill-formed term for each register check (30_encoding.md R88). -/

theorem test_wf_rd_above_7 : (Instr.gen 8#4).wf = false := by decide
theorem test_wf_ra_above_7 : (Instr.sqr 1#4 12#4).wf = false := by decide
theorem test_wf_rb_above_7 : (Instr.mul 1#4 2#4 8#4).wf = false := by decide
theorem test_wf_limit : (Instr.classify 7#4 7#4 7#4).wf = true := by decide

/-! Decoding: one word per command, the fields written as bits: RSV (44), RB, RA, RD, OP. -/

theorem test_decode_nop : decode (0b00000000000000000000000000000000000000000000_0000_0000_0000_00000000) = .ok .nop := by decide
theorem test_decode_add : decode (0b0001_0000_0010_00000001) = .ok (.add 2 0 1) := by decide
theorem test_decode_mul : decode (0b0001_0000_0010_00000010) = .ok (.mul 2 0 1) := by decide
theorem test_decode_sqr : decode (0b0000_0011_0011_00000011) = .ok (.sqr 3 3) := by decide
theorem test_decode_pow : decode (0b0010_0000_0001_00000100) = .ok (.pow 1 0 2) := by decide
theorem test_decode_gen : decode (0b0000_0000_0110_00000101) = .ok (.gen 6) := by decide
theorem test_decode_minpe : decode (0b0000_0010_0011_00001000) = .ok (.minpe 3 2) := by decide
theorem test_decode_minpr : decode (0b0000_0000_0001_00001001) = .ok (.minpr 1 0) := by decide
theorem test_decode_gcd : decode (0b0001_0000_0010_00001010) = .ok (.gcd 2 0 1) := by decide
theorem test_decode_recip : decode (0b0000_0001_0011_00001011) = .ok (.recip 3 1) := by decide
theorem test_decode_class : decode (0b0011_0010_0100_00001100) = .ok (.classify 4 2 3) := by decide
theorem test_decode_nkinit : decode (0b0000_0000_0000_00010000) = .ok .nkinit := by decide
theorem test_decode_nknext : decode (0b0000_0000_0101_00010001) = .ok (.nknext 5) := by decide
theorem test_decode_run : decode (0b0000_0000_0000_00011000) = .ok .run := by decide

/-- 95_test_vectors.md 2.1: the rejected words and the check that rejects each. -/
theorem test_decode_rejects :
    decode 0x06 = .error .undefinedOp ∧ decode 0xFF = .error .undefinedOp ∧ decode 0x19 = .error .undefinedOp ∧
    decode 0x80202 = .error .registerRange ∧ decode 0x100018 = .error .reservedBits ∧
    decode 0x1000000000000002 = .error .reservedBits ∧ decode 0x10303 = .error .unusedField ∧
    decode 0x1005 = .error .unusedField ∧ decode 0x100 = .error .unusedField ∧
    decode 0x8011 = .error .unusedField := by decide

/-- 95_test_vectors.md 2.1, the words of "assembles from". -/
theorem test_encode_words :
    encode (.mul 2 0 1) = 0x10202 ∧ encode (.sqr 3 3) = 0x3303 ∧ encode (.classify 4 2 3) = 0x3240C ∧
    encode .run = 0x18 ∧ encode (.nknext 0) = 0x11 := by decide

theorem test_table_word : decodeTableWord 64 0x1020A = some (.gcd 2 0 1) := by decide

/-! One step on a small state. -/

/-- A state with a FIFO of four entries, the command word accepted, DEGREE, REDUCTION and GROUP_ORDER as given. -/
def start (n : BitVec 7) (red : Operand) (g : Word) : State :=
  { State.reset with fifoDepth := 4, degree := n, reduction := red, groupOrder := g, seq := .accepted }

/-- The same with V[r] loaded. -/
def load (s : State) (r : RegNum) (x : Operand) : State := s.setV r x

/-- The state a command leaves; the tests compare fields of it. -/
def after (i : Instr) (s : State) : State :=
  match exec i s with
  | .next t => t
  | .fault _ => s
  | .refused _ => s

/-- The state one step leaves. -/
def oneStep (s : State) : State :=
  match step s with
  | .next t => t
  | .fault _ => s
  | .refused _ => s

/-- 44_run.md R180. -/
theorem test_nop : (after .nop (start 0 0 0)).cmdDone = true ∧ (after .nop (start 0 0 0)).seq = .idle := by decide

/-- 41_field_arith.md R125: bit 4 of 0x1F is ignored at n = 4. -/
theorem test_add : (after (.add 2 0 1) (load (load (start 4 0x13 0) 0 0x1F) 1 0x3)).getV 2 = 0xC := by decide

/-- 95_test_vectors.md 2.3: n = 8, 0xFF·0xFF = 0xE2. -/
theorem test_mul : (after (.mul 2 0 1) (load (load (start 8 0x11D 0) 0 0xFF) 1 0xFF)).getV 2 = 0xE2 := by
  decide +kernel

/-- 95_test_vectors.md 2.3: n = 64, 2^63·2^63 = 0xC00000000000005A. -/
theorem test_mul_64 :
    (after (.mul 2 0 0) (load (start 64 0x1B 0) 0 0x8000000000000000)).getV 2 = 0xC00000000000005A := by
  decide +kernel

/-- 41_field_arith.md R127: the destination is the source. -/
theorem test_sqr : (after (.sqr 3 3) (load (start 8 0x11D 0) 3 0x80)).getV 3 = 0x13 := by decide +kernel

/-- 95_test_vectors.md 2.3: the inverse of 0x53 modulo 0x11B. -/
theorem test_pow : (after (.pow 2 0 1) (load (load (start 8 0x11B 0) 0 0x53) 1 254)).getV 2 = 0xCA := by
  decide +kernel

/-- 41_field_arith.md R130: 0^0 = 1. -/
theorem test_pow_zero : (after (.pow 2 0 1) (start 8 0x11D 0)).getV 2 = 1 := by decide +kernel

/-- 41_field_arith.md R128: 2 for n >= 2, REDUCTION[0] for n = 1. -/
theorem test_gen :
    (after (.gen 0) (start 64 0x1B 0)).getV 0 = 2 ∧ (after (.gen 0) (start 1 0x3 0)).getV 0 = 1 ∧
    (after (.gen 0) (start 1 0x2 0)).getV 0 = 0 := by decide

/-- 95_test_vectors.md 2.4: n = 4, e = 2^64 + 3 gives 0x1F (bit 64 ignored). -/
theorem test_minpe : (after (.minpe 1 0) (load (start 4 0x13 0) 0 0x10000000000000003)).getV 1 = 0x1F := by
  decide +kernel

/-- 95_test_vectors.md 2.4: x^4 + 1 is reducible; e = 14 raises ARITH_INVARIANT and V1 is not written. -/
theorem test_minpe_open :
    (after (.minpe 1 0) (load (start 4 0x11 0) 0 14)).errRec = some ⟨.arithInvariant, 0, 14⟩ ∧
    (after (.minpe 1 0) (load (load (start 4 0x11 0) 0 14) 1 5)).getV 1 = 5 := by decide +kernel

/-- 95_test_vectors.md 2.4: n = 8, root 2 gives 0x11D; root 0 gives 0x100. -/
theorem test_minpr :
    (after (.minpr 1 0) (load (start 8 0x11D 0) 0 2)).getV 1 = 0x11D ∧
    (after (.minpr 1 0) (start 8 0x11D 0)).getV 1 = 0x100 := by decide +kernel

/-- 95_test_vectors.md 2.5. -/
theorem test_gcd :
    (after (.gcd 2 0 1) (load (load (start 0 0 0) 0 0x1000000000000000C) 1 15)).getV 2 = 3 ∧
    (after (.gcd 2 0 1) (load (load (start 0 0 0) 0 0xFFFFFFFFFFFFFFFF) 1 0xFFFFFFFF)).getV 2 = 0xFFFFFFFF ∧
    (after (.gcd 2 0 1) (load (start 0 0 0) 1 7)).getV 2 = 7 := by decide +kernel

/-- 95_test_vectors.md 2.5: n = 64, and bits above n ignored at n = 4. -/
theorem test_recip :
    (after (.recip 3 1) (load (start 64 0x1B 0) 1 0x1000000000000001B)).getV 3 = 0x1B000000000000001 ∧
    (after (.recip 3 1) (load (start 4 0x13 0) 1 0x7F)).getV 3 = 0x1F := by decide +kernel

/-- 95_test_vectors.md 2.5: e = 12, m = 0x1F gives orbit 5, S; X is unchanged. -/
theorem test_class :
    (after (.classify 4 2 3) (load (load ((start 4 0x13 15).setX true) 2 12) 3 0x1F)).getV 4 = 5 ∧
    (after (.classify 4 2 3) (load (load ((start 4 0x13 15).setX true) 2 12) 3 0x1F)).flags
      = ⟨false, true, false, true⟩ := by decide +kernel

/-- 95_test_vectors.md 2.5: e = 0 and G = 0 give orbit 0 and P = 0. -/
theorem test_class_zero :
    (after (.classify 4 2 3) (load (start 4 0x13 0) 3 0x13)).getV 4 = 0 ∧
    (after (.classify 4 2 3) (load (start 4 0x13 0) 3 0x13)).flags.p = false := by decide +kernel

/-- 40_necklace.md R105. -/
theorem test_nkinit :
    (after .nkinit (start 4 0x13 15)).view .nkCtl = 0x10401 ∧ (after .nkinit (start 4 0x13 15)).view .nkA = 0 := by
  decide

/-- 95_test_vectors.md 2.2: the candidate after 26 at n = 5 is 30. -/
theorem test_nknext :
    (after (.nknext 0) { start 5 0 0 with nk := ⟨26, 5, 5, .active⟩ }).getV 0 = 30 := by decide +kernel

/-- 40_necklace.md R106: the fourth NKNEXT at n = 4 sets X and leaves V0, NK_A = 0xF, NK_P = 1, EXHAUSTED. -/
theorem test_nknext_end :
    (after (.nknext 0) { start 4 0 0 with nk := ⟨14, 4, 4, .active⟩ }).flags.x = true ∧
    (after (.nknext 0) { start 4 0 0 with nk := ⟨14, 4, 4, .active⟩ }).nk = ⟨0xF, 1, 4, .exhausted⟩ := by
  decide +kernel

/-- 44_run.md R192, the first candidate step at n = 4: e = 8, both results pending. -/
theorem test_run_candidate :
    (after .run { start 4 0x13 15 with seq := .runLoop, nk := nkStart 4 }).pend
      = [⟨0x13, true, 15⟩, ⟨0x19, true, 15⟩] := by decide +kernel

/-- 44_run.md R192: the result step that pushes the second result. -/
theorem test_run_result :
    (after .run { start 4 0x13 15 with seq := .runLoop, fifo := [⟨0x13, true, 15⟩], pend := [⟨0x19, true, 15⟩] }).fifo
      = [⟨0x13, true, 15⟩, ⟨0x19, true, 15⟩] := by decide

/-! The host's side. -/

/-- 95_test_vectors.md 2.9. -/
theorem test_id : (start 0 0 0).view .id = 0x0004084047460007 := by decide

/-- 95_test_vectors.md 2.8: GEN with DEGREE = 0. -/
theorem test_invalid_degree :
    (oneStep { start 0 0 0 with cmd := 5 }).view .errCause = 1 ∧ (oneStep { start 0 0 0 with cmd := 5 }).view .errInfo = 5 ∧
    (oneStep { start 0 0 0 with cmd := 5 }).view .status = 8 := by decide

/-- 95_test_vectors.md 2.7: the held RUN reads STATUS 0x100F1. -/
theorem test_held_status :
    { start 8 0x11D 255 with fifoDepth := 1, seq := .runLoop, fifo := [⟨0x11D, true, 255⟩],
                             pend := [⟨0x171, true, 255⟩] }.statusWord = 0x100F1 := by decide

/-- 95_test_vectors.md 2.8: RUN held, a write of V2_LO is rejected. -/
theorem test_write_while_busy :
    (oneStep { start 8 0 0 with schedule := [wr (.vLo 2) 7] }).errRec = some ⟨.writeWhileBusy, 0x120, 7⟩ := by decide

/-- 95_test_vectors.md 2.8: a command written while busy is lost. -/
theorem test_cmd_while_busy :
    (oneStep { start 8 0 0 with cmd := 0x18, schedule := [wr .cmd 5] }).errRec = some ⟨.cmdWhileBusy, 0x30, 5⟩ ∧
    (oneStep { start 8 0 0 with cmd := 0x18, schedule := [wr .cmd 5] }).cmd = 0x18 := by decide

/-- 30_encoding.md R93: `li` loads 65 bits; DEGREE = 0x84 reads back 4 (95_test_vectors.md 2.8). -/
theorem test_li :
    (oneStep (oneStep { start 8 0 0 with seq := .idle, schedule := li 7 0x1000000000000001B })).getV 7
      = 0x1000000000000001B ∧
    (oneStep (oneStep { start 8 0 0 with seq := .idle, schedule := [wr .degree 0x84, rd .degree] })).rdata = 4 := by
  decide

/-- 95_test_vectors.md 2.9: CTRL = 6 acts as SRST alone, and abandons a command without CMDDONE. -/
theorem test_srst :
    (oneStep { start 8 0x11D 255 with schedule := [wr .ctrl 6] }) = { start 0 0 0 with seq := .idle, moves := 1 } := by decide

/-- 44_run.md R190 and program 6 of 95_test_vectors.md: ABORT of a held RUN, its discarding step and its end. -/
theorem test_abort :
    (oneStep (oneStep (oneStep { start 8 0x11D 255 with
              fifoDepth := 1, cmd := 0x18, seq := .runLoop, fifo := [⟨0x11D, true, 255⟩], pend := [⟨0x171, true, 255⟩],
              schedule := [wr .ctrl 1] }))).view .status = 0x10036 := by decide

/-- 20_memory.md R64: a misaligned access is refused. -/
theorem test_misaligned :
    step { start 0 0 0 with schedule := [.host (.read ⟨0x004, 8, 0xFF⟩)] }
      = .refused (.unperformedAccess ⟨0x004, 8, 0xFF⟩) := rfl

/-! Witnesses: concrete states and operands that meet the hypotheses of each obligation, clause by clause. -/

/-- A RUN in progress at n = 4 with the example's table, between two candidates. -/
def running : State :=
  { start 4 0x13 15 with cmd := 0x18, seq := .runLoop, nk := nkStart 4, emitCount := 2, fifo := [⟨0x13, true, 15⟩] }

/-- The same held by a full FIFO. -/
def heldRun : State := { running with fifoDepth := 1, pend := [⟨0x19, true, 15⟩] }

theorem witness_DecodeOfEncodeIsTheCommand : (Instr.mul 2 0 1).wf = true ∧ (Instr.classify 7 7 7).wf = true := by decide

theorem witness_DecodedWordIsTheEncoding : decode 0x3240C = .ok (.classify 4 2 3) := by decide

/-- R94: one word for each check, the boundary of the register range among them. -/
theorem witness_DecodeChecksInOrder :
    (∀ c ∈ commandTable, (0x06#64).extractLsb' 0 8 ≠ c.op) ∧
    (⟨0x02, true, true, true, true⟩ : CommandRow) ∈ commandTable ∧ (0x77702#64).extractLsb' 0 8 = 0x02#8 ∧
    (0x77702#64).extractLsb' 20 44 = 0#44 ∧ (0x100002#64).extractLsb' 20 44 ≠ 0#44 := by decide

theorem witness_StepRunsTheDecodedCommand :
    running.seq ≠ .idle ∧ decode running.cmd = .ok .run ∧ running.schedule = [] ∧ State.reset.seq = .idle := by decide

theorem witness_IllegalWordIsAcceptedAndOnlyErrs :
    decode 0x80202 = .error .registerRange ∧ State.reset.seq = .idle ∧
    { start 0 0 0 with cmd := 0x80202 }.seq ≠ .idle ∧ { start 0 0 0 with cmd := 0x80202 }.cmd = 0x80202 := by decide

/-- The degree's clauses, at the ends of 1..64 and of what lies outside. -/
theorem witness_DegreeLegal :
    (start 1 0 0).DegreeLegal ∧ (start 64 0 0).DegreeLegal ∧ ¬ (start 0 0 0).DegreeLegal ∧ ¬ (start 65 0 0).DegreeLegal ∧
    ¬ (start 127 0 0).DegreeLegal := by decide

/-- With witness_DegreeLegal: the result statements of the commands that read the degree. -/
theorem witness_AddMulSqrPowRecipClassNkinit :
    (Instr.add 7 7 7).wf = true ∧ (Instr.mul 0 7 1).wf = true ∧ (Instr.sqr 3 3).wf = true ∧ (Instr.pow 0 0 0).wf = true ∧
    (Instr.recip 7 0).wf = true ∧ (Instr.classify 4 2 3).wf = true := by decide

theorem witness_GenWritesXModP :
    (Instr.gen 7).wf = true ∧ 2 ≤ (start 2 0 0).degree.toNat ∧ (start 64 0 0).degree.toNat ≤ 64 ∧
    (start 1 3 0).degree = 1#7 := by decide

/-- 42_minpoly.md R145: e = 8 closes modulo x^4 + x + 1, e = 1 does not modulo x^4 + 1. -/
theorem witness_MinpeWritesThePolynomialOrErrs :
    (Instr.minpe 3 2).wf = true ∧
    (∀ f ∈ orbitProduct (gfPow (gfMulx 1#4 0x3#4) 8 0x3#4) 0x3#4, f = 0#4 ∨ f = 1#4) ∧
    ¬ ∀ f ∈ orbitProduct (gfPow (gfMulx 1#4 0x1#4) 1 0x1#4) 0x1#4, f = 0#4 ∨ f = 1#4 := by decide +kernel

theorem witness_MinprWritesThePolynomialOrErrs :
    (Instr.minpr 1 0).wf = true ∧ (∀ f ∈ orbitProduct 2#4 0x3#4, f = 0#4 ∨ f = 1#4) ∧
    ¬ ∀ f ∈ orbitProduct 2#4 0x1#4, f = 0#4 ∨ f = 1#4 := by decide +kernel

/-- The degrees of the ring statements: MulIsRemainderOfTheProduct, PowIsTheRingPower, OrbitProductIsTheProduct. -/
theorem witness_RingDegree : 1 ≤ (start 1 0 0).degree.toNat ∧ 1 ≤ (start 64 0 0).degree.toNat := by decide

theorem witness_CollapseSetsTheBits : ([1#4, 1#4, 0#4, 0#4] : List (BitVec 4)).length = 4 := by decide

/-- x + 1 is irreducible. -/
theorem witness_IrreducibleReductionClosesEveryOrbit : Irreducible (reductionPoly 1#1) := by
  have h : reductionPoly 1#1 = Polynomial.X - Polynomial.C (1 : ZMod 2) := by
    have : (1 : Polynomial (ZMod 2)) = -1 := by
      rw [← Polynomial.C_1, ← Polynomial.C_neg]; congr 1
    simp [reductionPoly, patternPoly, sub_eq_add_neg, ← this]
  rw [h]
  exact Polynomial.irreducible_X_sub_C 1

theorem witness_RootIsARootOfItsPolynomial : minPoly 2#4 0x3#4 = some 0x13#5 := by decide +kernel

theorem witness_GcdWritesTheGcd : (Instr.gcd 2 0 1).wf = true := by decide

/-- 40_necklace.md R103: the last 0 of 0001 is digit 3, of 1111 there is none. -/
theorem witness_NecklaceStepCopiesThePeriod :
    (4#7).toNat ≤ 64 ∧ digit 0x8 3 = false ∧ digit 0x8 4 = true ∧ digit 0xF 1 = true ∧ digit 0xF 2 = true ∧
    digit 0xF 3 = true ∧ digit 0xF 4 = true := by decide

theorem witness_NecklaceSearchIsTheLoop : (64#7).toNat ≤ 64 := by decide

/-- 40_necklace.md R106: at n = 4 the search from 0000 finds 8 and the search from 14 finds nothing. -/
theorem witness_NecklaceSearchFindsTheNextCandidate :
    (0x0#64) >>> (4#7).toNat = 0#64 ∧ nkSeek (nkStart 4) = (⟨8, 4, 4, .active⟩, true) ∧
    nkSeek ⟨14, 4, 4, .active⟩ = (⟨0xF, 1, 4, .exhausted⟩, false) := by decide +kernel

/-- The strings 0000 and 0111 are prenecklaces. -/
theorem witness_Prenecklace : Prenecklace 4 (nkStart 4).a ∧ Prenecklace 4 14#64 := by
  refine ⟨fun k i _ _ _ h => ?_, fun k i h1 h2 h3 h4 => ?_⟩
  · simp [nkStart, digit] at h
  · have h0 : k = 0 := by
      by_contra hk
      have hi : i ≠ 1 := fun e => by subst e; exact absurd h4 (by decide)
      have := h3 1 le_rfl (by omega)
      have hk3 : k < 4 := by omega
      interval_cases k <;> simp_all [digit]
    subst h0
    simpa using h4

/-- 01 is the candidate of length 2, the value 2. -/
theorem witness_CandidateRange : Candidate 2 2#64 := by
  refine ⟨fun k h1 h2 => ⟨1, le_rfl, by omega, fun j h3 h4 => by omega, by decide, ?_⟩, by decide, by decide⟩
  obtain rfl : k = 1 := by omega
  decide

theorem witness_NknextYieldsOrSetsX :
    (Instr.nknext 5).wf = true ∧ State.reset.nk.st ≠ .active ∧ running.nk.st = .active ∧
    nkSeek running.nk = (⟨8, 4, 4, .active⟩, true) ∧ nkSeek ⟨14, 4, 4, .active⟩ = (⟨0xF, 1, 4, .exhausted⟩, false) := by
  decide +kernel

theorem witness_RunInitialises : (start 4 0x13 15).seq ≠ .runLoop ∧ (start 4 0x13 15).DegreeLegal := by decide

/-- The final step with DONE and with EXHAUSTED; a search that finds nothing; a candidate whose orbit closes, and one,
14 modulo x^4 + 1, whose orbit does not (95_test_vectors.md 2.4). -/
theorem witness_RunStepWithNothingPending :
    running.seq = .runLoop ∧ running.pend = [] ∧ running.done = false ∧ running.nk.st ≠ .exhausted ∧
    { running with done := true }.done = true ∧ { running with nk := ⟨0xF, 1, 4, .exhausted⟩ }.nk.st = .exhausted ∧
    nkSeek ⟨14, 4, 4, .active⟩ = (⟨0xF, 1, 4, .exhausted⟩, false) ∧
    nkSeek running.nk = (⟨8, 4, 4, .active⟩, true) ∧ minPoly (gfPow (gfMulx 1#4 0x3#4) 8 0x3#4) 0x3#4 = some 0x13#5 ∧
    minPoly (gfPow (gfMulx 1#4 0x1#4) 14 0x1#4) 0x1#4 = none := by decide +kernel

theorem witness_RunResultStep :
    heldRun.seq = .runLoop ∧ heldRun.pend = [⟨0x19, true, 15⟩] ∧ heldRun.done = false ∧ heldRun.primOnly = false ∧
    { heldRun with fifoDepth := 2 }.fifo.length < (2#16).toNat ∧ { heldRun with done := true }.done = true ∧
    { heldRun with primOnly := true }.primOnly = true ∧ (⟨0x1F, false, 5⟩ : Result).prim = false := by decide

theorem witness_RunHeldByFullFifo :
    heldRun.fifoDepth.toNat ≤ heldRun.fifo.length ∧ (heldRun.view .status).getLsbD 6 = true := by decide

/-- CTRL words for each clause (ABORT alone, ABORT and CLRERR), and RUNNING 1 and 0. -/
theorem witness_CtrlWriteActsByItsBits :
    (0x1#64).getLsbD 1 = false ∧ (0x5#64).getLsbD 1 = false ∧
    (heldRun.view .status).getLsbD 7 = true ∧ (running.complete.view .status).getLsbD 7 = false := by decide

/-- CEILING = 3 within FIFO_DEPTH = 4, two entries emitted. -/
theorem witness_CeilingWithinDepthNeverHolds :
    { running with ceiling := 3 }.CeilingSafe ∧ { running with ceiling := 3 }.ceiling ≠ 0#64 ∧
    (3#64).toNat ≤ running.fifoDepth.toNat := by
  refine ⟨?_, by decide, by decide⟩
  intro _ _ _
  decide

/-- A step of the held RUN answers next: the hypothesis of every statement about a step. -/
theorem witness_StepAnswersNext : step heldRun = .next heldRun.tick ∧ exec .run heldRun = .next heldRun := ⟨rfl, rfl⟩

theorem witness_FirstErrorIsKept :
    State.reset.errRec = none ∧ (State.reset.raiseError .cmdWhileBusy 0x030 5).errRec ≠ none ∧
    (State.reset.raiseError .cmdWhileBusy 0x030 5).errRec = some ⟨.cmdWhileBusy, 0x030, 5⟩ := by decide

/-- The locked ranges at their ends, and a busy and an idle state. -/
theorem witness_LockedOffset :
    (∀ o ∈ ([0x050, 0x078, 0x100, 0x178] : List WinOffset), LockedOffset o) ∧
    (∀ o ∈ ([0x048, 0x080, 0x0F8, 0x180] : List WinOffset), ¬ LockedOffset o) ∧
    heldRun.seq ≠ .idle ∧ State.reset.seq = .idle := by decide

theorem witness_ResetLeavesTheResetState : (0x2#64).getLsbD 1 = true ∧ (0x7#64).getLsbD 1 = true := by decide

theorem witness_ResPopAndHeadWords : heldRun.fifo = [⟨0x13, true, 15⟩] ∧ State.reset.fifo = [] := by decide

theorem witness_ReservedAndReadOnlyIgnoreWrites :
    (∀ o ∈ ([0x0A8, 0x0B8, 0x0E0, 0x0F8, 0x180, 0x1F8] : List WinOffset), ReservedOffset o) ∧
    (∀ o ∈ ([0x0A0, 0x0C0, 0x0D8, 0x100, 0x178] : List WinOffset), ¬ ReservedOffset o) ∧
    (∀ o ∈ ([0x000, 0x010, 0x028, 0x038, 0x080, 0x0A0, 0x0C0, 0x0D0] : List WinOffset), ReadOnlyOffset o) ∧
    ∀ o ∈ ([0x008, 0x030, 0x040, 0x078, 0x0A8, 0x0D8] : List WinOffset), ¬ ReadOnlyOffset o := by
  refine ⟨?_, ?_, ?_, ?_⟩ <;> decide

/-- An idle state, RUNNING = 1 and 0, offsets at the ends of the clauses (the last ones: read twice while busy), and an
entry of the map. -/
theorem witness_ReadsChangeNothing :
    State.reset.seq = .idle ∧ (0x178#9).toNat % 8 = 0 ∧ (0x0F8#9).toNat < 0x100 ∧ (0x0F8#9) ≠ 0x098 ∧
    (0x0F8#9) ≠ 0x0A0 ∧ ((start 4 0x13 15).view .status).getLsbD 7 = false ∧ heldRun.seq ≠ .idle ∧
    (∀ o ∈ ([0x000, 0x090, 0x100, 0x178, 0x1F8] : List WinOffset), o.toNat % 8 = 0 ∧ o ≠ 0x098 ∧ o ≠ 0x0A0) ∧
    ((0x080#9, 0#64) ∈ State.reset.shown) := by
  refine ⟨by decide, by decide, by decide, by decide, by decide, by decide, by decide, by decide, ?_⟩
  simp [State.shown, State.reset]

/-- BUSY = 1 with GEN of V2 in progress: two reads of V2_LO with only a read between return the same word (20_memory.md R66), whatever the choice. -/
theorem test_busy_read_twice :
    let s := ({ start 4 0x13 15 with cmd := 0x205 }).hostReads 0x120
    (oneStep ((oneStep ((oneStep s).hostReads 0x128)).hostReads 0x120)).rdata = (oneStep s).rdata := rfl

/-- An idle state, and the ends of the locked range. -/
theorem witness_WritesReadBackAndChangeNoOther :
    State.reset.seq = .idle ∧ ∀ o ∈ ([0x050, 0x078, 0x100, 0x178] : List WinOffset), LockedOffset o :=
  ⟨by decide, by decide⟩

/-- A busy state whose next event is no reset: a write of CTRL with ABORT. -/
theorem witness_BusyLocksConfiguration :
    { heldRun with schedule := [wr .ctrl 1] }.seq ≠ .idle ∧ ¬ (wr .ctrl 1).resets ∧
    step { heldRun with schedule := [wr .ctrl 1] } = .next { heldRun.tick with aborted := true, done := true } := by
  refine ⟨by decide, ?_, rfl⟩
  simp [wr, Event.resets]

/-- A RUN in progress meets the invariant. -/
theorem witness_StepKeepsTheInvariant : heldRun.Inv := by
  constructor <;> try decide
  constructor <;> decide

/-- A record that is legal, and the state with none. -/
theorem witness_StepKeepsErrorRecordsLegal :
    (∀ r, heldRun.errRec = some r → r.Legal) ∧ (⟨.writeWhileBusy, 0x120, 7⟩ : ErrRecord).Legal := by
  refine ⟨fun r h => (by cases h), ⟨0x120, by decide, by decide⟩⟩

end Sys2Proof.Tests
end

/-! The family of 10_state.md: what identifies the machine (ID), the state after reset, and the host's side of the
result FIFO (O45, O44, O48, O49). -/

namespace Sys2Proof.Machine

open Sys2Proof

/-! ID (10_state.md R22): no step changes FIFO_DEPTH -/

/-- No step of RUN after its first changes FIFO_DEPTH (44_run.md R183). -/
@[simp] theorem State.runStep_fifoDepth (s : State) : s.runStep.fifoDepth = s.fifoDepth := by
  rcases s.runStep_cases with ⟨r, rest, -, h⟩ | ⟨-, -, h⟩ | ⟨-, -, -, h⟩ <;> rw [h]
  · rcases s.runResult_cases r rest with ⟨-, h⟩ | ⟨-, -, -, h⟩ | ⟨-, -, -, h⟩ | ⟨-, -, h⟩ <;> simp [h]
  · rfl
  · rcases s.runCandidate_cases with ⟨k, -, h⟩ | ⟨k, -, ⟨l, -, h⟩ | h⟩ <;> simp [h, State.failedWith]

/-- The commands that write an operand register and nothing else keep FIFO_DEPTH. -/
theorem fifoDepth_of_exec_writesOnlyV {s t : State} {i : Instr} (hi : writesOnlyV i) (h : exec i s = .next t) :
    t.fifoDepth = s.fifoDepth := by
  rcases exec_writesOnlyV s hi h with ⟨x, rfl⟩ | ⟨-, -, rfl⟩ | ⟨-, data, rfl⟩ <;> rfl

/-- No command changes FIFO_DEPTH. -/
theorem fifoDepth_of_exec {s t : State} {i : Instr} (h : exec i s = .next t) : t.fifoDepth = s.fifoDepth := by
  cases i
  case nop => cases h; rfl
  case classify => rcases exec_classify_cases s h with ⟨x, p, q, r, rfl⟩ | ⟨-, rfl⟩ <;> rfl
  case nkinit => rcases exec_nkinit_cases s h with ⟨-, rfl⟩ | ⟨-, rfl⟩ <;> rfl
  case nknext =>
    rcases exec_nknext_cases s h with ⟨-, rfl⟩ | ⟨-, k, found, -, rfl⟩
    · rfl
    · cases found <;> rfl
  case run =>
    by_cases hq : s.seq = .runLoop
    · rw [exec_run_loop s hq] at h; cases h; exact s.runStep_fifoDepth
    · rcases exec_run_first_cases s hq h with ⟨-, rfl⟩ | ⟨-, rfl⟩ <;> rfl
  all_goals exact fifoDepth_of_exec_writesOnlyV (by trivial) h

/-- No turn of the core changes FIFO_DEPTH. -/
theorem fifoDepth_of_coreStep {s t : State} (h : coreStep s = .next t) : t.fifoDepth = s.fifoDepth := by
  rcases coreStep_cases s h with ⟨-, rfl⟩ | ⟨-, i, -, h⟩ | ⟨-, -, rfl⟩
  · rfl
  · exact fifoDepth_of_exec h
  · rfl

/-- No write of CTRL changes FIFO_DEPTH, a reset included (70_reset_and_hazards.md R241). -/
@[simp] theorem State.writeCtrl_fifoDepth (s : State) (w : Word) : (s.writeCtrl w).fifoDepth = s.fifoDepth := by
  rcases s.writeCtrl_cases w with ⟨-, h⟩ | ⟨-, t, rfl | ⟨-, rfl⟩, h | h⟩ <;> simp [h, State.toReset]

/-- No write changes FIFO_DEPTH. -/
@[simp] theorem State.writeReg_fifoDepth (s : State) (off : WinOffset) (r : WinReg) (w : Word) :
    (s.writeReg off r w).fifoDepth = s.fifoDepth := by
  have hstore : (s.store w r).fifoDepth = s.fifoDepth := by
    obtain ⟨-, -, -, -, h, -⟩ := s.store_frame w r; exact h
  rcases s.writeReg_cases off r w with ⟨-, h⟩ | ⟨-, -, h⟩ | ⟨-, -, h⟩ | ⟨-, h⟩ | ⟨-, h⟩ | ⟨-, -, h⟩ | ⟨-, -, h⟩ |
    ⟨-, -, h⟩ <;> simp [h, hstore]

/-- No event changes FIFO_DEPTH. -/
theorem fifoDepth_of_eventStep {s t : State} {ev : Event} (h : eventStep ev s = .next t) :
    t.fifoDepth = s.fifoDepth := by
  rcases eventStep_cases s h with ⟨-, h⟩ | ⟨-, rfl⟩ | ⟨acc, -, -, rfl⟩ | ⟨acc, w, -, -, rfl⟩
  · exact (fifoDepth_of_coreStep h).trans s.tick_fifoDepth
  · rfl
  · rw [s.readReg_eq]
  · simp

/-- No step changes FIFO_DEPTH. -/
theorem fifoDepth_of_step {s t : State} (h : step s = .next t) : t.fifoDepth = s.fifoDepth := by
  rcases step_cases s h with ⟨-, h⟩ | ⟨ev, evs, -, h⟩
  · exact (fifoDepth_of_coreStep h).trans s.tick_fifoDepth
  · exact (fifoDepth_of_eventStep h :)

/-- ID is FIFO_DEPTH joined to a constant. -/
theorem State.view_id (s : State) : s.view .id = s.fifoDepth ++ 0x084047460007#48 := by
  apply BitVec.eq_of_toNat_eq
  rw [State.view, State.idWord]
  iterate 5 rw [toNat_join]
  simp only [BitVec.toNat_ofNat]
  omega

/-- The fields of ID. -/
theorem State.view_id_fields (s : State) :
    (s.view .id).extractLsb' 0 16 = 0x0007#16 ∧ (s.view .id).extractLsb' 16 16 = 0x4746#16 ∧
    (s.view .id).extractLsb' 32 8 = 0x40#8 ∧ (s.view .id).extractLsb' 40 8 = 0x08#8 ∧
    (s.view .id).extractLsb' 48 16 = s.fifoDepth := by
  have hlt := s.fifoDepth.isLt
  rw [s.view_id]
  refine ⟨?_, ?_, ?_, ?_, ?_⟩ <;> apply BitVec.eq_of_toNat_eq <;>
  · rw [BitVec.extractLsb'_toNat, toNat_join, Nat.shiftRight_eq_div_pow]
    simp only [BitVec.toNat_ofNat]
    omega

/-- FIFO_DEPTH as a number: it fits in the 16 bits of its field (00_scope.md R8). -/
theorem config_fifoDepth_toNat : Config.fifoDepth.toNat = Config.fifoDepthPred.val + 1 := by
  have := Config.fifoDepthPred.isLt
  rw [Config.fifoDepth, BitVec.toNat_ofNat]
  omega

theorem config_fifoDepth_pos : 0 < Config.fifoDepth.toNat := by
  rw [config_fifoDepth_toNat]; omega

theorem config_fifoDepth_ne_zero : Config.fifoDepth ≠ 0#16 := fun h => by
  have := config_fifoDepth_pos
  simp [h] at this

/-- Settles O45: ID is FIFO_DEPTH and constants, and every kind of step keeps FIFO_DEPTH. -/
theorem idIsConstant : Obligations.IdIsConstant :=
  ⟨State.view_id_fields, config_fifoDepth_ne_zero,
    fun s t h => by rw [t.view_id, s.view_id, fifoDepth_of_step h]⟩

/-! The state after reset (10_state.md R47) -/

/-- Every operand register is 0 after reset. -/
@[simp] theorem getV_reset (r : RegNum) : State.reset.getV r = 0#65 := by
  by_cases h : r.toNat < 8 <;> simp [State.getV_eq, State.reset, h]

/-- The FIFO is not full after reset, whatever FIFO_DEPTH is. -/
@[simp] theorem fifoFull_reset : State.reset.fifoFull = false :=
  decide_eq_false (Nat.not_le.2 config_fifoDepth_pos)

/-- STATUS reads 0 after reset. -/
theorem statusWord_reset : State.reset.statusWord = 0#64 := by
  rw [State.statusWord, fifoFull_reset]; rfl

/-- Every register but ID reads 0 after reset. -/
theorem view_reset (r : WinReg) (h : r ≠ .id) : State.reset.view r = 0#64 := by
  cases r with
  | id => exact absurd rfl h
  | status => exact statusWord_reset
  | vLo k => simp only [State.view, getV_reset]; rfl
  | vHi k => simp only [State.view, getV_reset]; rfl
  | _ => rfl

/-- Settles O44: register by register for the window; FIFO_DEPTH, which no proof sees, is only in ID and FIFO_FULL. -/
theorem resetValues : Obligations.ResetValues :=
  ⟨view_reset, State.reset.view_id, rfl, rfl, rfl, rfl, rfl, getV_reset⟩

/-! The host's side of the result FIFO (10_state.md R42, R43) -/

/-- A read of a register whose read is no free choice returns what the register shows, and changes nothing else
(20_memory.md R66). -/
theorem step_hostReads_view (s : State) {off : WinOffset} (h : off.toNat % 8 = 0)
    (hd : s.drawsOn (winRegAt off) = false) (hn : s.seesNew (winRegAt off) = false) :
    step (s.hostReads off) = .next { s with rdata := s.view (winRegAt off) } := by
  rw [step_hostReads, hostStep_read s off h]
  simp [State.readReg, State.readValue, hd, hn]

/-- A write of RES_POP takes the head off, whatever its data. -/
theorem step_hostWrites_resPop (s : State) (w : Word) : step (s.hostWrites 0x0D8 w) = .next s.tick.popFifo := by
  rw [step_hostWrites, hostStep_write s _ w (by decide)]
  rfl

/-- Settles O48: a write of RES_POP leaves the tail of the FIFO, which for an empty FIFO is the FIFO. -/
theorem resPopRemovesTheHead : Obligations.ResPopRemovesTheHead := by
  refine fun s w => ⟨fun r rest h => ?_, fun h => ?_, step_hostReads_view s (by decide) rfl rfl⟩
  · rw [step_hostWrites_resPop, State.popFifo, s.tick_fifo, h, List.tail_cons]
  · rw [step_hostWrites_resPop, State.popFifo, s.tick_fifo, h, List.tail_nil, ← h]
    rfl

/-- Every bit of RES_INFO with a head: POLY[64], PRIM and VALID, the rest 0 (10_state.md R42). -/
theorem State.view_resInfo_getLsbD {s : State} {r : Result} {rest : List Result} (h : s.fifo = r :: rest) (i : Nat) :
    (s.view .resInfo).getLsbD i =
      if i = 0 then r.poly.getLsbD 64 else if i = 8 then r.prim else decide (i = 63) := by
  simp only [State.view, State.resInfoWord, h]
  iterate 4 rw [BitVec.getLsbD_append]
  by_cases h0 : i = 0
  · simp [h0]
  by_cases h8 : i = 8
  · simp [h8]
  rw [if_neg h0, if_neg h8, Bool.eq_iff_iff]
  grind [BitVec.getLsbD_ofBool]

/-- A field of RES_INFO that holds none of the bits 0, 8 and 63 is 0. -/
theorem State.view_resInfo_field {s : State} {r : Result} {rest : List Result} (h : s.fifo = r :: rest) (i n : Nat)
    (h0 : 0 < i) (h8 : i + n ≤ 8 ∨ 8 < i) (h63 : i + n ≤ 63) : (s.view .resInfo).extractLsb' i n = 0#n := by
  apply BitVec.eq_of_getLsbD_eq
  intro j hj
  have hbit : (s.view .resInfo).getLsbD (i + j) = false := by
    rw [State.view_resInfo_getLsbD h, if_neg (by omega), if_neg (by omega), decide_eq_false (by omega)]
  simp [hbit]

/-- Settles O49: the three reads are no free choice; RES_INFO bit by bit, the other two words by their definition. -/
theorem headWordsShowTheOldestResult : Obligations.HeadWordsShowTheOldestResult := by
  refine fun s => ⟨step_hostReads_view s (by decide) rfl rfl, step_hostReads_view s (by decide) rfl rfl,
    step_hostReads_view s (by decide) rfl rfl, fun h => ?_, fun r rest h => ⟨?_, ?_, ?_, ?_, ?_, ?_, ?_⟩⟩
  · simp [State.view, State.resPolyLoWord, State.resInfoWord, State.resOrbitWord, h]
  · simp [State.view, State.resPolyLoWord, loWord, h, BitVec.setWidth_eq_extractLsb']
  · simp [State.view, State.resOrbitWord, h]
  · exact State.view_resInfo_getLsbD h 0
  · exact State.view_resInfo_getLsbD h 8
  · exact State.view_resInfo_getLsbD h 63
  · exact State.view_resInfo_field h 1 7 (by decide) (by decide) (by decide)
  · exact State.view_resInfo_field h 9 54 (by decide) (by decide) (by decide)

end Sys2Proof.Machine

/-! The family of 30_encoding.md: the encoding examples of R95 (O1). -/

namespace Sys2Proof

/-- The word of a well-formed command decodes to that command: its OP and RSV pass checks (1) and (2) of
30_encoding.md R94, its register fields are the command's own (3), and `wf` is the range check (4). -/
theorem decode_encode {i : Instr} (hwf : i.wf = true) : decode (encode i) = .ok i := by
  obtain ⟨hop, hrd, hra, hrb, hrsv⟩ := encode_fields i
  simp [decode, hop, hrd, hra, hrb, hrsv, instrOfOp_fields, hwf]

/-- Settles O1: the nine words are computed from well-formed commands, so each decodes by `decode_encode`; the two
illegal words are decoded. -/
theorem specExampleWordsDecode : Obligations.SpecExampleWordsDecode := by
  refine ⟨fun p hp => ?_, by decide, by decide⟩
  have hexample : p.1.wf = true ∧ encode p.1 = p.2 := by
    revert p
    decide
  obtain ⟨hwf, hword⟩ := hexample
  exact ⟨hword, hword ▸ decode_encode hwf⟩

end Sys2Proof

/-! The family of 40_necklace.md: the range of the candidates (O29) and the commands NKINIT and NKNEXT (O30, O31). -/

namespace Sys2Proof.Machine

open Sys2Proof

/-! The range of the candidates (40_necklace.md R107) -/

/-- Digit a[i] is bit i-1 of the exponent (40_necklace.md R101). -/
theorem digit_eq_testBit (a : Word) {i : Nat} (h : 1 ≤ i) : digit a i = a.toNat.testBit (i - 1) :=
  digit_pos a i h

/-- A string whose digits stop at position n is a number below 2^n. -/
theorem toNat_lt_of_high_zero {a : Word} {n : Nat} (h : a >>> n = 0#64) : a.toNat < 2 ^ n := by
  have hdiv : a.toNat / 2 ^ n = 0 := by
    rw [← Nat.shiftRight_eq_div_pow, ← BitVec.toNat_ushiftRight, h, BitVec.toNat_zero]
  exact Nat.lt_of_div_eq_zero (Nat.two_pow_pos n) hdiv

/-- With the leading digit a[n] = 1 the exponent is at least 2^(n-1). -/
theorem two_pow_le_of_digit {a : Word} {n : Nat} (hn : 1 ≤ n) (h : digit a n = true) : 2 ^ (n - 1) ≤ a.toNat :=
  Nat.ge_two_pow_of_testBit (by rwa [← digit_eq_testBit a hn])

/-- The number 2^n - 1 is the string of all ones: a digit that is 0 excludes it. -/
theorem ne_two_pow_sub_one_of_digit {a : Word} {n i : Nat} (hi : 1 ≤ i) (hin : i ≤ n) (h : digit a i = false) :
    a.toNat ≠ 2 ^ n - 1 := by
  intro hall
  have hone : digit a i = true := by
    rw [digit_eq_testBit a hi, hall, Nat.testBit_two_pow_sub_one, decide_eq_true (by omega)]
  simp [hone] at h

/-- A Lyndon word of two or more digits has a digit 0: where its rotation by one position is greater. -/
theorem Lyndon.exists_digit_false {n : Nat} {a : Word} (h : Lyndon n a) (hn : 2 ≤ n) :
    ∃ i, 1 ≤ i ∧ i ≤ n ∧ digit a i = false := by
  obtain ⟨i, hi, hin, -, hzero, -⟩ := h 1 le_rfl (by omega)
  exact ⟨i, hi, hin, hzero⟩

/-- A string of one digit has no rotation to be compared with. -/
theorem lyndon_one (a : Word) : Lyndon 1 a := fun k h1 h2 => by omega

/-- CAND(1) is the string "1". -/
theorem candidate_one_iff (a : Word) : Candidate 1 a ↔ a = 1#64 := by
  constructor
  · rintro ⟨-, hlead, hhigh⟩
    have hlt := toNat_lt_of_high_zero hhigh
    have hle := two_pow_le_of_digit le_rfl hlead
    apply BitVec.eq_of_toNat_eq
    simp only [BitVec.toNat_ofNat]
    omega
  · rintro rfl
    exact ⟨lyndon_one _, by decide, by decide⟩

/-- Settles O29: the leading digit is 1, no digit stands above it, and for n >= 2 some digit is 0. -/
theorem candidateRange : Obligations.CandidateRange := by
  refine ⟨candidate_one_iff, fun n a hn _ ⟨hlyndon, hlead, hhigh⟩ => ?_⟩
  obtain ⟨i, hi, hin, hzero⟩ := hlyndon.exists_digit_false hn
  have hlt := toNat_lt_of_high_zero hhigh
  have hne := ne_two_pow_sub_one_of_digit hi hin hzero
  exact ⟨two_pow_le_of_digit (by omega) hlead, by omega⟩

/-! The commands NKINIT and NKNEXT (40_necklace.md R105, R106) -/

/-- The integer form of a well-formed command's word decodes to the command (30_encoding.md R80). -/
theorem decode_commandWord {i : Instr} (hwf : i.wf = true) :
    decode (commandWord i.opcode i.rd i.ra i.rb) = .ok i := by
  rw [commandWord_eq]
  exact decode_encode hwf

/-- Settles O30: past the degree check the command starts the generator, whatever it was doing. -/
theorem nkinitStartsTheGenerator : Obligations.NkinitStartsTheGenerator := by
  refine ⟨decode_encode (i := .nkinit) rfl, fun s => ⟨fun hdeg => ?_, fun hdeg => ?_⟩⟩
  · rw [exec_nkinit, s.withDegree_legal _ hdeg]
    rfl
  · rw [exec_nkinit, s.withDegree_illegal _ hdeg]

/-- Settles O31: the three ends are the branches of `exec_nknext` and of the search's answer. -/
theorem nknextYieldsOrSetsX : Obligations.NknextYieldsOrSetsX := by
  refine fun d s hwf => ⟨decode_commandWord (i := .nknext d) hwf, fun hst => ?_, fun hst k hk => ?_,
    fun hst k hk => ?_⟩
  · rw [exec_nknext, if_neg hst]
    rfl
  · rw [exec_nknext, if_pos hst, hk]
    rfl
  · rw [exec_nknext, if_pos hst, hk]
    rfl

end Sys2Proof.Machine

/-! The family of 41_field_arith.md: the commands ADD (O9), MUL (O10) and GEN (O13). -/

namespace Sys2Proof.Machine

open Sys2Proof

/-- Both answers of a command that reads n and writes its destination only: the value of its unit, or INVALID_DEGREE. -/
theorem exec_of_withDegree_finishV {i : Instr} {s : State} {d : RegNum} {x : Nat → Operand}
    (h : exec i s = s.withDegree fun n => s.finishV d (x n)) :
    (s.DegreeLegal → exec i s = .next (s.wrote d (x s.degree.toNat))) ∧
    (¬ s.DegreeLegal → exec i s = .next s.failedDegree) := by
  rw [h]
  exact ⟨fun hdeg => s.withDegree_legal _ hdeg, fun hdeg => s.withDegree_illegal _ hdeg⟩

/-- Bit j of ADD's value: the sources' bits from n on never reach it (41_field_arith.md R125). -/
theorem zext65_xor_getLsbD {n : Nat} (hn : n ≤ 65) (x y : Operand) (j : Nat) :
    (zext65 (elementOf n x ^^^ elementOf n y)).getLsbD j = (decide (j < n) && (x.getLsbD j ^^ y.getLsbD j)) := by
  by_cases hj : j < n
  · simp [zext65, elementOf, hj, show j < 65 by omega]
  · simp [zext65, elementOf, hj]

/-- Settles O9: the value of ADD bit by bit, and the two ends of the command. -/
theorem addIsXorOnTheLowBits : Obligations.AddIsXorOnTheLowBits := by
  intro d a b s hwf
  obtain ⟨hlegal, hillegal⟩ := exec_of_withDegree_finishV (exec_add s d a b)
  refine ⟨decode_commandWord (i := .add d a b) hwf, fun hdeg => ⟨_, fun j => ?_, hlegal hdeg⟩, hillegal⟩
  obtain ⟨-, hmax⟩ := hdeg
  exact zext65_xor_getLsbD (by omega) _ _ j

/-- Settles O10: MUL's value is the multiplier's output by definition, so only the two ends of the command are left. -/
theorem mulWritesTheRingProduct : Obligations.MulWritesTheRingProduct :=
  fun d a b s hwf => ⟨decode_commandWord (i := .mul d a b) hwf, exec_of_withDegree_finishV (exec_mul s d a b)⟩

/-- From degree 2 on, 1 is no top bit: the shift step gives 2 and leaves R out (41_field_arith.md R128). -/
theorem generator_of_two_le {n : Nat} (hn : 2 ≤ n) (R : BitVec n) : generator R = 2#n := by
  have hmsb : (1#n).msb = false := by rw [BitVec.msb_one, decide_eq_false (by omega)]
  rw [generator, gfMulx, hmsb, if_neg (by decide)]
  apply BitVec.eq_of_toNat_eq
  simp [Nat.shiftLeft_eq]

/-- At degree 1, 1 is the top bit: the shift drops it and R is what is left (41_field_arith.md R128). -/
theorem generator_one (R : BitVec 1) : generator R = R := by
  revert R; decide

/-- The number 2 fits in every element's width from degree 2 on. -/
theorem zext65_two {n : Nat} (hmin : 2 ≤ n) (hmax : n ≤ 64) : zext65 2#n = 2#65 :=
  BitVec.setWidth_ofNat_of_le_of_lt (by omega) (lt_of_lt_of_le (by decide) (Nat.pow_le_pow_right two_pos hmin))

/-- REDUCTION at degree 1 is its bit 0 alone (41_field_arith.md R121). -/
theorem zext65_low_bit (x : Operand) : zext65 (x.setWidth 1) = if x.getLsbD 0 then 1#65 else 0#65 := by
  rw [BitVec.setWidth_one]
  cases x.getLsbD 0 <;> rfl

/-- Settles O13: GEN's value at n >= 2 and at n = 1, each a legal degree, and the two ends of the command. -/
theorem genWritesXModP : Obligations.GenWritesXModP := by
  intro d s hwf
  obtain ⟨hlegal, hillegal⟩ := exec_of_withDegree_finishV (exec_gen s d)
  refine ⟨decode_commandWord (i := .gen d) hwf, fun hmin hmax => ?_, fun hone => ?_, hillegal⟩
  · rw [hlegal ⟨by omega, hmax⟩, generator_of_two_le hmin, zext65_two hmin hmax]
  · have hdeg : s.degree.toNat = 1 := by simp [hone]
    rw [hlegal ⟨by omega, by omega⟩, hdeg, generator_one, State.red, zext65_low_bit]

end Sys2Proof.Machine

/-! The family of 42_minpoly.md: the multiplier in GF(2)[x]/(P), the orbit product, the collapse (O20), the root of the
collapsed polynomial (O22), and the commands MINPE and MINPR (O17, O18). -/

namespace Sys2Proof.Machine

open Sys2Proof Polynomial

/-! Patterns as polynomials over GF(2) (00_scope.md R9) -/

theorem coeff_ite_X_pow (b : Bool) (i j : Nat) :
    (if b then (X : (ZMod 2)[X]) ^ i else 0).coeff j = if j = i then (if b then 1 else 0) else 0 := by
  cases b <;> simp [coeff_X_pow]

/-- The polynomial of a pattern has the pattern's bits as coefficients. -/
@[simp] theorem patternPoly_coeff {n : Nat} (a : BitVec n) (j : Nat) :
    (patternPoly a).coeff j = if a.getLsbD j then 1 else 0 := by
  rw [patternPoly, finsetSum_coeff, Finset.sum_congr rfl fun i _ => coeff_ite_X_pow _ i j, Finset.sum_ite_eq]
  by_cases hj : j < n
  · simp [hj]
  · simp [hj, BitVec.getLsbD_of_ge a j (Nat.le_of_not_lt hj)]

/-- XOR of patterns is the sum of their polynomials. -/
theorem patternPoly_xor {n : Nat} (a b : BitVec n) : patternPoly (a ^^^ b) = patternPoly a + patternPoly b := by
  ext j
  rw [coeff_add, patternPoly_coeff, patternPoly_coeff, patternPoly_coeff, BitVec.getLsbD_xor]
  cases a.getLsbD j <;> cases b.getLsbD j <;> decide

theorem patternPoly_zero (n : Nat) : patternPoly 0#n = 0 := by
  ext j
  simp

theorem patternPoly_one {n : Nat} (hn : 1 ≤ n) : patternPoly 1#n = 1 := by
  ext j
  rw [patternPoly_coeff, coeff_one, BitVec.getLsbD_one]
  simp [show 0 < n from hn, eq_comm]

/-- The shift by one place multiplies by x, but for the top bit, which leaves the pattern. -/
theorem patternPoly_shiftLeft_one {n : Nat} (t : BitVec n) :
    patternPoly (t <<< 1) + (if t.msb then X ^ n else 0) = X * patternPoly t := by
  ext j
  rw [coeff_add, coeff_ite_X_pow, patternPoly_coeff, BitVec.getLsbD_shiftLeft, BitVec.msb_eq_getLsbD_last]
  cases j with
  | zero =>
    rw [coeff_X_mul_zero]
    rcases n with _ | n <;> simp
  | succ j =>
    rw [coeff_X_mul, patternPoly_coeff]
    rcases lt_trichotomy (j + 1) n with h | h | h
    · simp [h, h.ne]
    · simp [← h]
    · simp [h.ne', h.not_gt, BitVec.getLsbD_of_ge t j (by omega)]

/-- The shift step multiplies by x and takes P off where the top bit was set (41_field_arith.md R122). -/
theorem patternPoly_gfMulx {n : Nat} (t R : BitVec n) :
    patternPoly (gfMulx t R) + (if t.msb then reductionPoly R else 0) = X * patternPoly t := by
  rw [← patternPoly_shiftLeft_one, gfMulx]
  cases t.msb
  · simp
  · have hchar : patternPoly R + patternPoly R = 0 := CharTwo.add_self_eq_zero _
    simp only [if_true, patternPoly_xor, reductionPoly]
    linear_combination hchar

/-! Patterns as elements of GF(2)[x]/(P) (41_field_arith.md R124) -/

section Ring

variable {n : Nat} (R : BitVec n)

theorem ringElement_xor (a b : BitVec n) : ringElement R (a ^^^ b) = ringElement R a + ringElement R b := by
  rw [ringElement, patternPoly_xor, map_add, ringElement, ringElement]

@[simp] theorem ringElement_zero : ringElement R 0#n = 0 := by
  rw [ringElement, patternPoly_zero, map_zero]

theorem ringElement_one (hn : 1 ≤ n) : ringElement R 1#n = 1 := by
  rw [ringElement, patternPoly_one hn, map_one]

/-- The ring has characteristic 2. -/
theorem ringElement_add_self (a : BitVec n) : ringElement R a + ringElement R a = 0 := by
  rw [← ringElement_xor, BitVec.xor_self, ringElement_zero]

/-- A pattern's element is the sum of the powers of x at its bits. -/
theorem ringElement_eq_sum (a : BitVec n) :
    ringElement R a = ∑ j ∈ Finset.range n, if a.getLsbD j then AdjoinRoot.root (reductionPoly R) ^ j else 0 := by
  simp [ringElement, patternPoly, map_sum, apply_ite (AdjoinRoot.mk (reductionPoly R))]

/-- The shift step is the product with x (41_field_arith.md R122). -/
theorem ringElement_gfMulx (t : BitVec n) :
    ringElement R (gfMulx t R) = AdjoinRoot.root (reductionPoly R) * ringElement R t := by
  have h := congrArg (AdjoinRoot.mk (reductionPoly R)) (patternPoly_gfMulx t R)
  rwa [map_add, apply_ite (AdjoinRoot.mk (reductionPoly R)), AdjoinRoot.mk_self, map_zero, ite_self, add_zero, map_mul,
    AdjoinRoot.mk_X] at h

/-- The multiplier's loop adds to the accumulator the product of t and the bits of b from bit i on
(41_field_arith.md R123). -/
theorem ringElement_gfMulFrom (b : BitVec n) (k i : Nat) (acc t : BitVec n) :
    ringElement R (gfMulFrom b R k i acc t) = ringElement R acc + ringElement R t *
      ∑ j ∈ Finset.range k, if b.getLsbD (i + j) then AdjoinRoot.root (reductionPoly R) ^ j else 0 := by
  induction k generalizing i acc t with
  | zero => simp [gfMulFrom]
  | succ k ih =>
    have hacc : ringElement R (if b.getLsbD i then acc ^^^ t else acc) =
        ringElement R acc + ringElement R t * (if b.getLsbD i then 1 else 0) := by
      cases b.getLsbD i <;> simp [ringElement_xor]
    have hshift : ∀ j, (if b.getLsbD (i + (j + 1)) then AdjoinRoot.root (reductionPoly R) ^ (j + 1) else 0) =
        AdjoinRoot.root (reductionPoly R) *
          (if b.getLsbD (i + 1 + j) then AdjoinRoot.root (reductionPoly R) ^ j else 0) := fun j => by
      rw [mul_ite, mul_zero, pow_succ', add_right_comm, add_assoc]
    rw [gfMulFrom, ih, ringElement_gfMulx, hacc, Finset.sum_range_succ', Finset.sum_congr rfl fun j _ => hshift j,
      ← Finset.mul_sum, add_zero, pow_zero]
    ring

/-- The multiplier is the product of the ring (41_field_arith.md R124). -/
theorem ringElement_gfMul (a b : BitVec n) :
    ringElement R (gfMul a b R) = ringElement R a * ringElement R b := by
  rw [gfMul, ringElement_gfMulFrom, ringElement_zero, zero_add, ringElement_eq_sum R b]
  simp only [zero_add]

/-! The orbit product (42_minpoly.md R141, R142) -/

/-- The array holds the coefficients of p of degrees 0..n-1 (42_minpoly.md R142, after k repetitions). -/
def HoldsCoeffs (F : List (BitVec n)) (p : (AdjoinRoot (reductionPoly R))[X]) : Prop :=
  F.length = n ∧ ∀ j, j < n → ringElement R (F.getD j 0#n) = p.coeff j

/-- The array starts as the polynomial 1. -/
theorem holdsCoeffs_one (hn : 1 ≤ n) : HoldsCoeffs R (1#n :: List.replicate (n - 1) 0#n) 1 := by
  refine ⟨by simp; omega, fun j hj => ?_⟩
  cases j with
  | zero => simp [ringElement_one R hn]
  | succ j => simp [coeff_one, show j < n - 1 by omega]

variable {R}

/-- One repetition multiplies by x + r. -/
theorem holdsCoeffs_timesLinear {F : List (BitVec n)} {p : (AdjoinRoot (reductionPoly R))[X]} (h : HoldsCoeffs R F p)
    (r : BitVec n) : HoldsCoeffs R (timesLinear r R F) (p * (X + C (ringElement R r))) := by
  obtain ⟨hlen, hcoeff⟩ := h
  refine ⟨(timesLinear_length r R F).trans hlen, fun j hj => ?_⟩
  rw [timesLinear_getD r R F j (by omega), ringElement_xor, ringElement_gfMul, hcoeff j hj, mul_add, coeff_add,
    coeff_mul_C]
  cases j with
  | zero => simp
  | succ j => rw [List.getD_cons_succ, hcoeff j (by omega), coeff_mul_X]

/-- The loop multiplies by the k linear factors from x + r on, each root the square of the one before. -/
theorem holdsCoeffs_orbitLoop {k : Nat} {F : List (BitVec n)} {p : (AdjoinRoot (reductionPoly R))[X]}
    (h : HoldsCoeffs R F p) (r : BitVec n) :
    HoldsCoeffs R (orbitLoop R k F r) (p * ∏ i ∈ Finset.range k, (X + C (ringElement R r ^ 2 ^ i))) := by
  induction k generalizing F p r with
  | zero => simpa [orbitLoop] using h
  | succ k ih =>
    have hsquare : ∀ i, ringElement R (gfMul r r R) ^ 2 ^ i = ringElement R r ^ 2 ^ (i + 1) := fun i => by
      rw [ringElement_gfMul, ← sq, ← pow_mul, ← pow_succ']
    have hstep := ih (holdsCoeffs_timesLinear h r) (gfMul r r R)
    simp only [hsquare] at hstep
    rwa [Finset.prod_range_succ', pow_zero, pow_one, mul_comm (∏ i ∈ _, _), ← mul_assoc]

end Ring

/-- The product of the linear factors over the orbit of the root: the target of 42_minpoly.md R141. -/
noncomputable def orbitPoly {n : Nat} (R root : BitVec n) : (AdjoinRoot (reductionPoly R))[X] :=
  ∏ i ∈ Finset.range n, (X + C (ringElement R root ^ 2 ^ i))

/-- The array of 42_minpoly.md R142 holds the coefficients of R141's product below its monic term. -/
theorem holdsCoeffs_orbitProduct {n : Nat} (hn : 1 ≤ n) (root R : BitVec n) :
    HoldsCoeffs R (orbitProduct root R) (orbitPoly R root) := by
  have h := holdsCoeffs_orbitLoop (k := n) (holdsCoeffs_one R hn) root
  rwa [one_mul] at h

theorem orbitPoly_monic {n : Nat} (R root : BitVec n) : (orbitPoly R root).Monic :=
  monic_prod_of_monic _ _ fun _ _ => monic_X_add_C _

theorem orbitPoly_natDegree {n : Nat} (R root : BitVec n) [Nontrivial (AdjoinRoot (reductionPoly R))] :
    (orbitPoly R root).natDegree = n := by
  rw [orbitPoly, natDegree_prod_of_monic _ _ fun _ _ => monic_X_add_C _,
    Finset.sum_congr rfl fun _ _ => natDegree_X_add_C _]
  simp

/-- The coefficient array with the monic term is the orbit product (42_minpoly.md R141, R142). -/
theorem coefficientPoly_orbitProduct {n : Nat} (hn : 1 ≤ n) (root R : BitVec n) :
    coefficientPoly R (orbitProduct root R) = orbitPoly R root := by
  nontriviality AdjoinRoot (reductionPoly R)
  obtain ⟨-, hcoeff⟩ := holdsCoeffs_orbitProduct hn root R
  have hsum := (orbitPoly_monic R root).as_sum
  rw [orbitPoly_natDegree] at hsum
  rw [hsum, coefficientPoly, Finset.sum_congr rfl fun j hj => by rw [hcoeff j (Finset.mem_range.1 hj)]]

/-- The root is a root of its orbit product: the first factor vanishes, in characteristic 2. -/
theorem orbitPoly_eval_root {n : Nat} (hn : 1 ≤ n) (R root : BitVec n) :
    (orbitPoly R root).eval (ringElement R root) = 0 := by
  rw [orbitPoly, eval_prod]
  refine Finset.prod_eq_zero (Finset.mem_range.2 hn) ?_
  simp [ringElement_add_self]

/-! The collapse (42_minpoly.md R144) -/

/-- Bit i of a pattern into which bit j was set under a condition. -/
theorem getLsbD_ite_or_bit {w i : Nat} (hi : i < w) (c : Prop) [Decidable c] (m : BitVec w) (j : Nat) :
    (if c then m ||| (1#w <<< j) else m).getLsbD i = (m.getLsbD i || decide (i = j ∧ c)) := by
  by_cases hc : c
  · simp [hc, ← BitVec.twoPow_eq, hi]
  · simp [hc]

/-- The loop keeps the bits that are set and sets bit i where F[i] = 1. -/
theorem collapseFrom_getLsbD {n i : Nat} (hi : i < n + 1) (F : List (BitVec n)) (j : Nat) (m : BitVec (n + 1)) :
    (collapseFrom j m F).getLsbD i = (m.getLsbD i || decide (j ≤ i ∧ F[i - j]? = some 1#n)) := by
  induction F generalizing j m with
  | nil => simp [collapseFrom]
  | cons f F ih =>
    rw [collapseFrom, ih, getLsbD_ite_or_bit hi]
    rcases lt_trichotomy i j with h | rfl | h
    · simp [h.ne, h.not_ge, show ¬ j + 1 ≤ i by omega]
    · simp
    · simp [h.ne', h.le, show j + 1 ≤ i by omega, show i - j = i - (j + 1) + 1 by omega]

/-- The pattern the loop starts with has bit n and no other. -/
theorem getLsbD_top_bit (n i : Nat) : (1#(n + 1) <<< n).getLsbD i = decide (i = n) := by
  simp [← BitVec.twoPow_eq, eq_comm]

/-- Settles O20: bit n is there from the start, and the loop sets bit j exactly where F[j] = 1. -/
theorem collapseSetsTheBits : Obligations.CollapseSetsTheBits := by
  intro n F hlen
  refine ⟨?_, fun j hj => ?_⟩
  · rw [collapse, collapseFrom_getLsbD n.lt_succ_self, getLsbD_top_bit]
    simp
  · rw [collapse, collapseFrom_getLsbD (by omega), getLsbD_top_bit]
    simp [hj.ne, List.getElem?_eq_getElem (hlen ▸ hj)]

/-! The root of the collapsed polynomial (42_minpoly.md R148) -/

/-- Where the check passes, the collapsed pattern is the coefficient array: its bits are the array's elements. -/
theorem map_patternPoly_collapse {n : Nat} (hn : 1 ≤ n) (R : BitVec n) {F : List (BitVec n)} (hlen : F.length = n)
    (hclosed : ∀ f ∈ F, f = 0#n ∨ f = 1#n) :
    (patternPoly (collapse F)).map (algebraMap (ZMod 2) (AdjoinRoot (reductionPoly R))) = coefficientPoly R F := by
  obtain ⟨htop, hbit⟩ := collapseSetsTheBits n F hlen
  have hterm : ∀ j ∈ Finset.range n, (if (collapse F).getLsbD j then X ^ j else 0) =
      C (ringElement R (F.getD j 0#n)) * X ^ j := fun j hj => by
    have hj := Finset.mem_range.1 hj
    have hmem : F.getD j 0#n ∈ F := by simp [hlen, hj]
    rw [hbit j hj]
    rcases hclosed _ hmem with h | h <;> rw [h]
    · simp [show n ≠ 0 by omega]
    · simp [ringElement_one R hn]
  simp only [patternPoly, Polynomial.map_sum, apply_ite (Polynomial.map _), Polynomial.map_pow, map_X,
    Polynomial.map_zero]
  rw [Finset.sum_range_succ, htop, if_pos rfl, Finset.sum_congr rfl hterm, coefficientPoly, add_comm]

/-- Settles O22: m is the orbit product, of which the root is a root. -/
theorem rootIsARootOfItsPolynomial : Obligations.RootIsARootOfItsPolynomial := by
  intro n root R m hn hm
  obtain ⟨hclosed, rfl⟩ := minPoly_some_iff.1 hm
  obtain ⟨hlen, -⟩ := holdsCoeffs_orbitProduct hn root R
  rw [← eval_map_algebraMap, map_patternPoly_collapse hn R hlen hclosed, coefficientPoly_orbitProduct hn,
    orbitPoly_eval_root hn]

/-! The commands MINPE and MINPR (42_minpoly.md R145, R146) -/

/-- The ends of a command that writes the polynomial of a root: the collapsed array, ARITH_INVARIANT, or
INVALID_DEGREE. -/
theorem exec_of_withDegree_finishMinPoly {i : Instr} {s : State} {d : RegNum} {root : (n : Nat) → BitVec n}
    {data : Nat → Word} (h : exec i s = s.withDegree fun n => s.finishMinPoly d n (root n) (data n)) :
    (s.DegreeLegal → ∀ F, F = orbitProduct (root s.degree.toNat) (s.red s.degree.toNat) →
      ((∀ f ∈ F, f = 0#s.degree.toNat ∨ f = 1#s.degree.toNat) →
        exec i s = .next (s.wrote d (zext65 (collapse F)))) ∧
      (¬ (∀ f ∈ F, f = 0#s.degree.toNat ∨ f = 1#s.degree.toNat) →
        exec i s = .next (s.failedWith ⟨.arithInvariant, s.cmd, data s.degree.toNat⟩))) ∧
    (¬ s.DegreeLegal → exec i s = .next s.failedDegree) := by
  rw [h]
  refine ⟨?_, fun hdeg => s.withDegree_illegal _ hdeg⟩
  rintro hdeg F rfl
  rw [s.withDegree_legal _ hdeg]
  exact ⟨fun hclosed => congrArg _ (s.finishMinPoly_some (minPoly_closed hclosed)),
    fun hopen => congrArg _ (s.finishMinPoly_none (minPoly_open hopen))⟩

/-- Settles O17: root(e) is the power of the generator by definition; the ends are those of the shared operation. -/
theorem minpeWritesThePolynomialOrErrs : Obligations.MinpeWritesThePolynomialOrErrs := by
  intro d a s hwf
  obtain ⟨hlegal, hillegal⟩ := exec_of_withDegree_finishMinPoly (exec_minpe s d a)
  refine ⟨decode_commandWord (i := .minpe d a) hwf, ?_, hillegal⟩
  rintro hdeg R F rfl hF
  exact hlegal hdeg F hF

/-- Settles O18: the root is the low n bits of the source. -/
theorem minprWritesThePolynomialOrErrs : Obligations.MinprWritesThePolynomialOrErrs := by
  intro d a s hwf
  obtain ⟨hlegal, hillegal⟩ := exec_of_withDegree_finishMinPoly (exec_minpr s d a)
  refine ⟨decode_commandWord (i := .minpr d a) hwf, ?_, hillegal⟩
  rintro hdeg root F rfl hF
  exact hlegal hdeg F hF

end Sys2Proof.Machine

/-! The family of 43_classify.md: the commands GCD (O23), RECIP (O24) and CLASS (O25). -/

namespace Sys2Proof.Machine

open Sys2Proof

/-! The gcd unit (43_classify.md R160) -/

/-- The remainder by a number that is no greater is less than half. -/
theorem two_mul_mod_lt {b r : Nat} (hpos : 0 < r) (hle : r ≤ b) : 2 * (b % r) < b := by
  have hlt := Nat.mod_lt b hpos
  have hquot : r * 1 ≤ r * (b / r) := Nat.mul_le_mul_left r (Nat.div_pos hle hpos)
  have hsum := Nat.mod_add_div b r
  omega

/-- A pass of the gcd loop keeps the greatest common divisor. -/
theorem gcd_eq_gcd_mod (a b : Nat) : Nat.gcd a b = Nat.gcd b (a % b) := by
  rw [Nat.gcd_comm, Nat.gcd_rec, Nat.gcd_comm]

/-- Two passes at least halve the second number, so 2k passes are enough below 2^k (log 11). -/
theorem gcdLoop_eq_gcd {k a b : Nat} (h : b < 2 ^ k) : gcdLoop (2 * k) a b = Nat.gcd a b := by
  induction k generalizing a b with
  | zero =>
    obtain rfl : b = 0 := by simpa using h
    exact (Nat.gcd_zero_right a).symm
  | succ k ih =>
    rw [Nat.mul_succ, gcdLoop_succ]
    by_cases hb : b = 0
    · rw [if_pos hb, hb, Nat.gcd_zero_right]
    rw [if_neg hb, gcdLoop_succ, gcd_eq_gcd_mod a b]
    by_cases hr : a % b = 0
    · rw [if_pos hr, hr, Nat.gcd_zero_right]
    have hlt := Nat.mod_lt a (Nat.pos_of_ne_zero hb)
    have hhalf := two_mul_mod_lt (Nat.pos_of_ne_zero hr) hlt.le
    rw [if_neg hr, ih (by omega), ← gcd_eq_gcd_mod]

/-- A common divisor of two words fits in a word. -/
theorem gcd_toNat_lt (a b : Word) : Nat.gcd a.toNat b.toNat < 2 ^ 64 := by
  rcases Nat.eq_zero_or_pos a.toNat with h | h
  · rw [h, Nat.gcd_zero_left]
    exact b.isLt
  · exact (Nat.gcd_le_left _ h).trans_lt a.isLt

/-- The bound of 130 passes is never met: the unit computes the greatest common divisor. -/
@[simp] theorem gcd64_toNat (a b : Word) : (gcd64 a b).toNat = Nat.gcd a.toNat b.toNat := by
  have hb : b.toNat < 2 ^ 65 := b.isLt.trans (by decide)
  have hloop : gcdLoop 130 a.toNat b.toNat = Nat.gcd a.toNat b.toNat := gcdLoop_eq_gcd hb
  rw [gcd64, hloop, BitVec.toNat_ofNat, Nat.mod_eq_of_lt (gcd_toNat_lt a b)]

theorem gcd64_zero_right (a : Word) : gcd64 a 0#64 = a :=
  BitVec.eq_of_toNat_eq (by simp)

theorem gcd64_zero_left (b : Word) : gcd64 0#64 b = b :=
  BitVec.eq_of_toNat_eq (by simp)

/-- Zero-extension keeps the number (30_encoding.md R83). -/
theorem zext65_eq_ofNat {w : Nat} (x : BitVec w) : zext65 x = BitVec.ofNat 65 x.toNat :=
  (BitVec.ofNat_toNat 65 x).symm

/-- An operand read as an integer is its low 64 bits (30_encoding.md R83). -/
@[simp] theorem integerOf_toNat (x : Operand) : (integerOf x).toNat = x.toNat % 2 ^ 64 := BitVec.toNat_setWidth 64 x

/-- Settles O23: the loop's bound is enough, and GCD passes no degree check. -/
theorem gcdWritesTheGcd : Obligations.GcdWritesTheGcd := by
  refine ⟨fun a b => ⟨gcd64_toNat a b, gcd64_zero_right a, gcd64_zero_left b⟩,
    fun d a b s hwf => ⟨decode_commandWord (i := .gcd d a b) hwf, ?_⟩⟩
  rw [exec_gcd, State.finishV_eq, zext65_eq_ofNat, gcd64_toNat, integerOf_toNat, integerOf_toNat]

/-! The reversal (43_classify.md R162) -/

/-- Bit j of the reversal is bit n - j. -/
theorem revN_getLsbD {n : Nat} (m : BitVec (n + 1)) (j : Nat) :
    (revN m).getLsbD j = (decide (j ≤ n) && m.getLsbD (n - j)) := by
  rw [revN, BitVec.getLsbD_reverse, BitVec.getMsbD_eq_getLsbD, Nat.add_sub_cancel, decide_eq_decide.2 Nat.lt_succ_iff]

theorem revN_revN {n : Nat} (m : BitVec (n + 1)) : revN (revN m) = m := BitVec.reverse_reverse_eq

/-- Bit j of RECIP's value: the source's bits above n never reach it (43_classify.md R163). -/
theorem zext65_revN_polynomialOf_getLsbD {n : Nat} (hn : n ≤ 64) (x : Operand) (j : Nat) :
    (zext65 (revN (polynomialOf n x))).getLsbD j = (decide (j ≤ n) && x.getLsbD (n - j)) := by
  rw [zext65, BitVec.getLsbD_setWidth, revN_getLsbD, polynomialOf, BitVec.getLsbD_setWidth]
  by_cases hj : j ≤ n
  · simp [hj, show j < 65 by omega, show n - j < n + 1 by omega]
  · simp [hj]

/-- Settles O24: the value of RECIP bit by bit, and the two ends of the command. -/
theorem recipWritesTheReversal : Obligations.RecipWritesTheReversal := by
  refine ⟨fun n m => ⟨fun j hj => ?_, revN_revN m⟩, fun d a s hwf => ?_⟩
  · rw [revN_getLsbD, decide_eq_true hj, Bool.true_and]
  · obtain ⟨hlegal, hillegal⟩ := exec_of_withDegree_finishV (exec_recip s d a)
    refine ⟨decode_commandWord (i := .recip d a) hwf, fun hdeg => ⟨_, fun j => ?_, hlegal hdeg⟩, hillegal⟩
    obtain ⟨-, hmax⟩ := hdeg
    exact zext65_revN_polynomialOf_getLsbD hmax _ j

/-! The classification (43_classify.md R164) -/

/-- The orbit as a number: for d = 0 it is 0, which is what division by 0 gives. -/
theorem classifyPoly_orbit_toNat {n : Nat} (e : Word) (m : BitVec (n + 1)) (G : Word) :
    (classifyPoly e m G).orbit.toNat = G.toNat / Nat.gcd e.toNat G.toNat := by
  have horbit : (classifyPoly e m G).orbit = G / gcd64 e G :=
    ite_eq_right_iff.2 fun h => by rw [h, BitVec.udiv_zero]
  rw [horbit, BitVec.toNat_udiv, gcd64_toNat]

/-- The primitive flag on numbers. -/
theorem classifyPoly_prim {n : Nat} (e : Word) (m : BitVec (n + 1)) (G : Word) :
    (classifyPoly e m G).prim = decide (Nat.gcd e.toNat G.toNat = 1) := by
  rw [classifyPoly, decide_eq_decide, ← BitVec.toNat_inj, gcd64_toNat]
  rfl

theorem classifyPoly_selfRecip {n : Nat} (e : Word) (m : BitVec (n + 1)) (G : Word) :
    (classifyPoly e m G).selfRecip = decide (revN m = m) := rfl

theorem classifyPoly_recipSmaller {n : Nat} (e : Word) (m : BitVec (n + 1)) (G : Word) :
    (classifyPoly e m G).recipSmaller = decide ((revN m).toNat < m.toNat) := rfl

/-- The end of CLASS: V[d] and P, S, R together, X left (43_classify.md R165). -/
theorem State.finishClass_eq (s : State) (d : RegNum) (c : Classification) :
    s.finishClass d c =
      { s.wrote d (zext65 c.orbit) with flags := ⟨c.prim, c.selfRecip, c.recipSmaller, s.flags.x⟩ } := rfl

/-- Settles O25: the classification's four results as numbers, written by the end of CLASS. -/
theorem classWritesOrbitAndFlags : Obligations.ClassWritesOrbitAndFlags := by
  intro d a b s hwf
  refine ⟨decode_commandWord (i := .classify d a b) hwf, ?_,
    fun hdeg => (exec_classify s d a b).trans (s.withDegree_illegal _ hdeg)⟩
  rintro hdeg g m rfl rfl
  rw [exec_classify, s.withDegree_legal _ hdeg, State.finishClass_eq, zext65_eq_ofNat, classifyPoly_orbit_toNat,
    classifyPoly_prim, classifyPoly_selfRecip, classifyPoly_recipSmaller, integerOf_toNat, polynomialOf]

end Sys2Proof.Machine

/-! The family of 44_run.md: the commands NOP (O32) and RUN, its first core step (O33), the steps with PEND empty (O34)
and the result step (O35). -/

namespace Sys2Proof.Machine

open Sys2Proof

/-! NOP and RUN's first core step (44_run.md R180, R182) -/

/-- Settles O32: NOP has no check to pass. -/
theorem nopOnlyCompletes : Obligations.NopOnlyCompletes :=
  ⟨decode_encode (i := .nop) rfl, exec_nop⟩

/-- Settles O33: the degree check comes before the initialisation. -/
theorem runInitialises : Obligations.RunInitialises := by
  refine ⟨decode_encode (i := .run) rfl, fun s hq => ⟨fun hdeg => ?_, fun hdeg => ?_⟩⟩
  · rw [exec_run_first s hq, s.withDegree_legal _ hdeg]
    rfl
  · rw [exec_run_first s hq, s.withDegree_illegal _ hdeg]

/-! The steps with PEND empty (44_run.md R183, R184, R185, R191) -/

/-- The classifier's orbit as the number of 43_classify.md R164. -/
theorem classifyPoly_orbit {n : Nat} (e : Word) (m : BitVec (n + 1)) (G : Word) :
    (classifyPoly e m G).orbit = BitVec.ofNat 64 (G.toNat / Nat.gcd e.toNat G.toNat) := by
  rw [← classifyPoly_orbit_toNat e m G, BitVec.ofNat_toNat, BitVec.setWidth_eq]

/-- What the candidate step puts in PEND is the rule of 44_run.md R185 on numbers. -/
theorem reciprocalResults_classifyPoly {n : Nat} (e G : Word) (m : BitVec (n + 1)) :
    reciprocalResults m (classifyPoly e m G) = pendingResults e G m := by
  simp only [reciprocalResults, pendingResults, classifyPoly_recipSmaller, classifyPoly_selfRecip, classifyPoly_prim,
    classifyPoly_orbit, decide_eq_true_eq, zext65]

/-- With PEND empty, DONE = 1 or an exhausted generator makes the step the final one. -/
theorem exec_run_final {s : State} (hq : s.seq = .runLoop) (hp : s.pend = [])
    (h : s.done = true ∨ s.nk.st = .exhausted) : exec .run s = .next s.complete := by
  rw [exec_run_loop s hq]
  simp [State.runStep, hp, h]

/-- With PEND empty and the run not over, the step is a candidate step on the answer of the search. -/
theorem exec_run_candidate {s : State} (hq : s.seq = .runLoop) (hp : s.pend = []) (hd : s.done = false)
    (hst : s.nk.st ≠ .exhausted) : exec .run s = .next (s.runCandidateWith (nkSeek s.nk)) := by
  rw [exec_run_loop s hq]
  simp [State.runStep, hp, hd, hst, State.runCandidate]

/-- A candidate whose orbit closes puts its results in PEND. -/
theorem State.runExamine_some {s : State} {n : Nat} {e : Word} {m : BitVec (n + 1)}
    (h : minPoly (rootOf e (s.red n)) (s.red n) = some m) :
    s.runExamine n e = { s with pend := pendingResults e s.groupOrder m } := by
  simp only [State.runExamine, h, reciprocalResults_classifyPoly]

/-- One whose orbit does not close ends the run with ARITH_INVARIANT. -/
theorem State.runExamine_none {s : State} {n : Nat} {e : Word}
    (h : minPoly (rootOf e (s.red n)) (s.red n) = none) :
    s.runExamine n e = s.failedWith ⟨.arithInvariant, s.cmd, e⟩ := by
  simp only [State.runExamine, h, State.failCommand_eq]

/-- Settles O34: the final step, and the candidate step by the search's answer and the closure of the orbit. -/
theorem runStepWithNothingPending : Obligations.RunStepWithNothingPending := by
  refine fun s hq hp => ⟨exec_run_final hq hp, fun hd hst => ?_⟩
  rw [exec_run_candidate hq hp hd hst]
  refine ⟨fun k hk => ?_, ?_⟩
  · rw [hk]
    rfl
  · rintro k hk R rfl
    rw [hk]
    exact ⟨fun m hm => congrArg _ (State.runExamine_some hm), fun hm => congrArg _ (State.runExamine_none hm)⟩

/-! The result step (44_run.md R186, R188, R189) -/

/-- A result is pushed in every mode but PRIM_ONLY, and there where it is primitive. -/
theorem State.emits_iff {s : State} {r : Result} : s.emits r = true ↔ s.primOnly = false ∨ r.prim = true := by
  simp [State.emits]

/-- The FIFO is full where its entries have reached FIFO_DEPTH. -/
theorem State.fifoFull_iff {s : State} : s.fifoFull = true ↔ s.fifoDepth.toNat ≤ s.fifo.length := decide_eq_true_iff

/-- With a result pending the step is the result step for the head of PEND. -/
theorem exec_run_result {s : State} {r : Result} {rest : List Result} (hq : s.seq = .runLoop)
    (hp : s.pend = r :: rest) : exec .run s = .next (s.runResult r rest) := by
  rw [exec_run_loop s hq, State.runStep, hp]

/-- The step after DONE = 1: PEND is discarded, uncounted. -/
theorem State.runResult_done {s : State} (r : Result) (rest : List Result) (hd : s.done = true) :
    s.runResult r rest = { s with pend := [] } := by
  rw [State.runResult, if_pos hd]

/-- The step of a result that is pushed, with space in the FIFO: the ceiling test sees the new EMIT_COUNT. -/
theorem State.runResult_push {s : State} {r : Result} (rest : List Result) (hd : s.done = false)
    (he : s.emits r = true) (hspace : s.fifo.length < s.fifoDepth.toNat) :
    s.runResult r rest =
      { s with
        irrCount := s.irrCount + 1#64, primCount := if r.prim then s.primCount + 1#64 else s.primCount,
        fifo := s.fifo ++ [r], emitCount := s.emitCount + 1#64,
        done := decide (s.ceiling ≠ 0#64 ∧ s.emitCount + 1#64 = s.ceiling), pend := rest } := by
  have hfull : s.fifoFull = false := decide_eq_false (Nat.not_le.2 hspace)
  simp [State.runResult, State.countResult, State.pushResult, hd, he, hfull]

/-- The step that would push into a full FIFO is none. -/
theorem State.runResult_held {s : State} {r : Result} (rest : List Result) (hd : s.done = false)
    (he : s.emits r = true) (hfull : s.fifoFull = true) : s.runResult r rest = s := by
  simp [State.runResult, hd, he, hfull]

/-- The step of a result that is not pushed, whatever space the FIFO has. -/
theorem State.runResult_count {s : State} {r : Result} (rest : List Result) (hd : s.done = false)
    (he : s.emits r = false) : s.runResult r rest = { s.countResult r with pend := rest } := by
  simp [State.runResult, hd, he]

/-- Settles O35: the four ends of the result step. A result that is not pushed is not primitive, so PRIM_COUNT stays. -/
theorem runResultStep : Obligations.RunResultStep := by
  intro s r rest hq hp
  rw [exec_run_result hq hp]
  refine ⟨fun hd => ?_, fun hd he hspace => ?_, fun hd he hfull => ?_, fun hd hmode hprim => ?_⟩
  · rw [State.runResult_done r rest hd]
  · rw [State.runResult_push rest hd (State.emits_iff.2 he) hspace]
  · rw [State.runResult_held rest hd (State.emits_iff.2 he) (State.fifoFull_iff.2 hfull)]
  · have he : s.emits r = false := by simp [State.emits, hmode, hprim]
    rw [State.runResult_count rest hd he, State.countResult, hprim]
    rfl

end Sys2Proof.Machine

/-! The family of 60_exceptions.md: a word that is no command (O7), the writes of CMD (O40), of a locked register while
busy (O41) and of CTRL (O42). -/

namespace Sys2Proof.Machine

open Sys2Proof

/-- A host write at a multiple of 8 writes the register that stands there (20_memory.md R61, R67). -/
theorem step_hostWrites_writeReg (s : State) {off : WinOffset} (w : Word) (h : off.toNat % 8 = 0) :
    step (s.hostWrites off w) = .next (s.tick.writeReg off (winRegAt off) w) := by
  rw [step_hostWrites, hostStep_write s off w h]

/-! Writes of CMD (60_exceptions.md R213, R216) -/

theorem step_hostWrites_cmd (s : State) (w : Word) : step (s.hostWrites 0x030 w) = .next (s.tick.writeCmd w) :=
  step_hostWrites_writeReg s w (by decide)

/-- While idle a write of CMD is accepted, whatever the word. -/
theorem State.writeCmd_idle {s : State} (w : Word) (h : s.seq = .idle) : s.writeCmd w = s.accept w :=
  if_neg (mt s.busy_iff.1 (not_not_intro h))

/-- While busy it only raises CMD_WHILE_BUSY. -/
theorem State.writeCmd_busy {s : State} (w : Word) (h : s.seq ≠ .idle) :
    s.writeCmd w = s.raiseError .cmdWhileBusy 0x030#64 w :=
  if_pos (s.busy_iff.2 h)

/-- The step that accepts a word: the decode checks come only with the core step (20_memory.md R72). -/
theorem step_hostWrites_cmd_idle {s : State} (w : Word) (h : s.seq = .idle) :
    step (s.hostWrites 0x030 w) = .next { s.tick with cmd := w, seq := .accepted } := by
  have hq : s.tick.seq = .idle := h
  rw [step_hostWrites_cmd, State.writeCmd_idle w hq]
  rfl

/-- Settles O7: the acceptance of O40, and the failing turn of the core. -/
theorem illegalWordIsAcceptedAndOnlyErrs : Obligations.IllegalWordIsAcceptedAndOnlyErrs := by
  refine fun w e s he => ⟨step_hostWrites_cmd_idle w, ?_⟩
  rintro hq rfl
  exact (step_coreMoves s).trans (coreStep_error s.tick hq he)

/-- Settles O40: the two branches of a write of CMD. -/
theorem cmdWriteIsAcceptedOrRejected : Obligations.CmdWriteIsAcceptedOrRejected := by
  refine fun s w => ⟨step_hostWrites_cmd_idle w, fun hq => ?_⟩
  have hbusy : s.tick.seq ≠ .idle := hq
  rw [step_hostWrites_cmd, State.writeCmd_busy w hbusy, State.raiseError_eq]
  rfl

/-! Writes of the locked registers (60_exceptions.md R217) -/

/-- While busy a write of a locked register only raises WRITE_WHILE_BUSY. -/
theorem State.writeReg_locked_busy {s : State} {r : WinReg} (off : WinOffset) (w : Word) (hr : r.locked = true)
    (hq : s.seq ≠ .idle) : s.writeReg off r w = s.raiseError .writeWhileBusy (off.setWidth 64) w := by
  have hlock : (r.locked && s.busy) = true := by rw [hr, s.busy_iff.2 hq]; rfl
  cases r with
  | ctrl | cmd | irqStatus | resPop => cases hr
  | _ => exact if_pos hlock

/-- Settles O41: every locked offset holds a locked register. -/
theorem lockedWriteWhileBusyOnlyErrs : Obligations.LockedWriteWhileBusyOnlyErrs := by
  intro s off w hq hoff
  have haligned : off.toNat % 8 = 0 := hoff.1
  have hlocked : (winRegAt off).locked = true := (winRegAt_locked off haligned).2 hoff
  have hbusy : s.tick.seq ≠ .idle := hq
  rw [step_hostWrites_writeReg s w haligned, State.writeReg_locked_busy off w hlocked hbusy, State.raiseError_eq]
  rfl

/-! Writes of CTRL (60_exceptions.md R220) -/

/-- ABORT acts where RUNNING = 1; ABORTED is set where DONE was 0 (44_run.md R190). -/
theorem State.abort_eq (s : State) :
    s.abort = { s with aborted := s.aborted || (s.running && !s.done), done := s.done || s.running } := by
  unfold State.abort
  cases s.running <;> simp

/-- A write of CTRL with SRST = 0, by its ABORT and CLRERR bits. -/
theorem State.writeCtrl_without_srst (s : State) {w : Word} (h : w.getLsbD 1 = false) :
    s.writeCtrl w =
      { s with
        aborted := s.aborted || (w.getLsbD 0 && s.running && !s.done), done := s.done || (w.getLsbD 0 && s.running),
        errRec := if w.getLsbD 2 then none else s.errRec } := by
  simp only [State.writeCtrl, h, State.abort_eq, State.clearError]
  cases w.getLsbD 0 <;> cases w.getLsbD 2 <;> simp

theorem step_hostWrites_ctrl (s : State) (w : Word) : step (s.hostWrites 0x008 w) = .next (s.tick.writeCtrl w) :=
  step_hostWrites_writeReg s w (by decide)

/-- Settles O42: RUNNING is bit 7 of STATUS, and a read of CTRL is no free choice. -/
theorem ctrlWriteActsByItsBits : Obligations.CtrlWriteActsByItsBits := by
  rintro s w run rfl
  refine ⟨fun hsrst => ?_, step_hostReads_view s (by decide) rfl rfl⟩
  rw [step_hostWrites_ctrl, State.writeCtrl_without_srst s.tick hsrst, status_running]
  rfl

end Sys2Proof.Machine

/-! The family of 30_encoding.md and the byte lanes of 20_memory.md: each command has one word (O2, O3), the order of the
decode checks (O4), the bytes of a transfer (O5). -/

namespace Sys2Proof

open Sys2Proof.Machine

/-- Settles O2: the four checks on the fields of the encoded word. -/
theorem decodeOfEncodeIsTheCommand : Obligations.DecodeOfEncodeIsTheCommand := fun _ hwf => decode_encode hwf

/-- A word that decodes is the encoding of its command: the checks fix all five of its fields. -/
theorem encode_of_decode {w : Word} {i : Instr} (h : decode w = .ok i) : encode i = w := by
  obtain ⟨hop, hrsv, hrd, hra, hrb, -⟩ := decode_ok h
  rw [encode, ← hrb, ← hra, ← hrd, instrOfOp_opcode hop, ← hrsv]
  exact fields_join w

/-- Settles O3: a word that passes the checks is its fields joined again. -/
theorem decodedWordIsTheEncoding : Obligations.DecodedWordIsTheEncoding := by
  intro w i h
  obtain ⟨-, -, -, -, -, hwf⟩ := decode_ok h
  exact ⟨hwf, encode_of_decode h⟩

/-! The opcode map and its table (30_encoding.md R82) -/

/-- Every command's opcode is in the table. -/
theorem exists_row_of_opcode (i : Instr) : ∃ c ∈ commandTable, i.opcode = c.op := by
  cases i <;> simp [commandTable, Instr.opcode]

/-- What the table says of an opcode is what the command of that opcode does with its fields. -/
theorem instrOfOp_of_row {c : CommandRow} (hc : c ∈ commandTable) (d a b : RegNum) :
    ∃ i, instrOfOp c.op d a b = some i ∧ i.opcode = c.op ∧ i.readsDegree = c.readsN ∧
      (d = i.rd ↔ (c.usesD = false → d = 0#4)) ∧ (a = i.ra ↔ (c.usesA = false → a = 0#4)) ∧
      (b = i.rb ↔ (c.usesB = false → b = 0#4)) ∧
      (i.wf = true ↔ (c.usesD = true → d.toNat ≤ 7) ∧ (c.usesA = true → a.toNat ≤ 7) ∧
        (c.usesB = true → b.toNat ≤ 7)) := by
  simp only [commandTable, List.mem_cons, List.not_mem_nil, or_false] at hc
  rcases hc with rfl | rfl | rfl | rfl | rfl | rfl | rfl | rfl | rfl | rfl | rfl | rfl | rfl | rfl <;>
    exact ⟨_, rfl, rfl, rfl, by
      simp [Instr.rd, Instr.ra, Instr.rb, Instr.wf, RegNum.ok, Nat.lt_succ_iff, and_assoc]⟩

/-- An opcode names no command exactly where the table has no row for it. -/
theorem instrOfOp_eq_none_iff {op : BitVec 8} {d a b : RegNum} :
    instrOfOp op d a b = none ↔ ∀ c ∈ commandTable, op ≠ c.op := by
  constructor
  · rintro hnone c hc rfl
    obtain ⟨i, hsome, -⟩ := instrOfOp_of_row hc d a b
    rw [hnone] at hsome
    cases hsome
  · intro hrows
    cases hop : instrOfOp op d a b with
    | none => rfl
    | some i =>
      obtain ⟨c, hc, hic⟩ := exists_row_of_opcode i
      exact absurd ((instrOfOp_opcode hop).symm.trans hic) (hrows c hc)

/-! The checks in their order (30_encoding.md R94) -/

/-- Check (1) is made first. -/
theorem decode_undefinedOp_iff (w : Word) :
    decode w = .error .undefinedOp ↔ instrOfOp (opField w) (rdField w) (raField w) (rbField w) = none := by
  unfold decode
  split
  · simp [*]
  · split_ifs <;> simp [*]

/-- Past check (1) the other three are made in order. -/
theorem decode_of_some {w : Word} {i : Instr}
    (h : instrOfOp (opField w) (rdField w) (raField w) (rbField w) = some i) :
    decode w =
      if rsvField w ≠ 0#44 then .error .reservedBits
      else if ¬ (rdField w = i.rd ∧ raField w = i.ra ∧ rbField w = i.rb) then .error .unusedField
      else if i.wf then .ok i
      else .error .registerRange := by
  rw [decode, h]
  simp only [not_and_or, ne_eq]

/-- Settles O4: the row gives the command, its checks and its column n; the outcomes are read off the order. -/
theorem decodeChecksInOrder : Obligations.DecodeChecksInOrder := by
  refine fun w => ⟨(decode_undefinedOp_iff w).trans instrOfOp_eq_none_iff, fun c hc hop => ?_⟩
  obtain ⟨i, hsome, hopcode, hreads, hrd, hra, hrb, hwf⟩ := instrOfOp_of_row hc (rdField w) (raField w) (rbField w)
  have hunused : c.unusedZero w ↔ rdField w = i.rd ∧ raField w = i.ra ∧ rbField w = i.rb := by
    rw [hrd, hra, hrb]; rfl
  have hrange : c.usedInRange w ↔ i.wf = true := hwf.symm
  have hrsv : w.extractLsb' 20 44 = rsvField w := rfl
  rw [← hop] at hsome
  rw [hunused, hrange, hrsv, decode_of_some hsome]
  split_ifs with h1 h2 h3 <;> simp_all

/-! The bytes of a transfer (20_memory.md R63) -/

theorem busBytes_getD (w : Word) {k : Nat} (hk : k < 8) : (busBytes w).getD k 0#8 = laneByte w k := by
  simp [busBytes, hk]

/-- Bit j of byte k is bit 8k + j of the word. -/
theorem laneByte_getLsbD (w : Word) (k : Nat) {j : Nat} (hj : j < 8) :
    (laneByte w k).getLsbD j = w.getLsbD (8 * k + j) := by
  simp [laneByte, hj]

/-- Bit 8k + j of the word the bytes give is bit j of byte k. -/
theorem ofBusBytes_getLsbD (bs : List Byte) {k j : Nat} (hk : k < 8) (hj : j < 8) :
    (ofBusBytes bs).getLsbD (8 * k + j) = (bs.getD k 0#8).getLsbD j := by
  induction bs generalizing k with
  | nil => simp [ofBusBytes]
  | cons b bs ih =>
    rw [ofBusBytes, BitVec.getLsbD_or, BitVec.getLsbD_shiftLeft, BitVec.getLsbD_setWidth]
    cases k with
    | zero => simp [hj, show j < 64 by omega]
    | succ k =>
      have hbyte : b.getLsbD (8 * (k + 1) + j) = false := BitVec.getLsbD_of_ge _ _ (by omega)
      rw [hbyte, show 8 * (k + 1) + j - 8 = 8 * k + j by omega, ih (by omega), List.getD_cons_succ]
      simp [show 8 * (k + 1) + j < 64 by omega, show ¬ 8 * (k + 1) + j < 8 by omega]

/-- Settles O5: bit by bit, both ways. -/
theorem byteLanesCarryTheWord : Obligations.ByteLanesCarryTheWord := by
  intro w
  have hbit : ∀ k, k < 8 → ∀ j, j < 8 → ((busBytes w).getD k 0#8).getLsbD j = w.getLsbD (8 * k + j) :=
    fun k hk j hj => by rw [busBytes_getD w hk, laneByte_getLsbD w k hj]
  refine ⟨BitVec.eq_of_getLsbD_eq fun i hi => ?_, rfl, hbit⟩
  have hi8 : i = 8 * (i / 8) + i % 8 := (Nat.div_add_mod i 8).symm
  rw [hi8, ofBusBytes_getLsbD _ (by omega) (by omega), hbit _ (by omega) _ (by omega)]

end Sys2Proof

/-! The ring GF(2)[x]/(P) of 41_field_arith.md and 42_minpoly.md: the multiplier (O14, O15) and the exponentiator (O16) as
operations of the ring, the orbit product (O19), the closure of every orbit for an irreducible P (O21), and the commands
SQR and POW (O11, O12). -/

namespace Sys2Proof.Machine

open Sys2Proof Polynomial

/-! A pattern is the remainder of its ring element (41_field_arith.md R124) -/

section Ring

variable {n : Nat} {R : BitVec n}

theorem patternPoly_degree_lt (a : BitVec n) : (patternPoly a).degree < n :=
  (degree_lt_iff_coeff_zero _ n).2 fun j hj => by simp [BitVec.getLsbD_of_ge a j hj]

theorem patternPoly_injective : Function.Injective (patternPoly (n := n)) := fun a b h => by
  apply BitVec.eq_of_getLsbD_eq
  intro j hj
  have hcoeff := congrArg (coeff · j) h
  simp only [patternPoly_coeff] at hcoeff
  revert hcoeff
  cases a.getLsbD j <;> cases b.getLsbD j <;> simp

theorem reductionPoly_monic (R : BitVec n) : (reductionPoly R).Monic := monic_X_pow_add (patternPoly_degree_lt R)

theorem reductionPoly_degree (R : BitVec n) : (reductionPoly R).degree = n := by
  rw [reductionPoly, degree_add_eq_left_of_degree_lt (by simpa using patternPoly_degree_lt R), degree_X_pow]

/-- A pattern has degree below n, so it is the remainder of every polynomial in its class. -/
theorem patternPoly_eq_modByMonic {a : BitVec n} {p : (ZMod 2)[X]}
    (h : ringElement R a = AdjoinRoot.mk (reductionPoly R) p) : patternPoly a = p %ₘ reductionPoly R := by
  have hsmall : (patternPoly a).degree < (reductionPoly R).degree :=
    (patternPoly_degree_lt a).trans_eq (reductionPoly_degree R).symm
  calc patternPoly a = patternPoly a %ₘ reductionPoly R :=
        ((modByMonic_eq_self_iff (reductionPoly_monic R)).2 hsmall).symm
    _ = p %ₘ reductionPoly R := modByMonic_eq_of_dvd_sub (reductionPoly_monic R) (AdjoinRoot.mk_eq_mk.1 h)

/-- Different patterns stand for different elements. -/
theorem ringElement_injective (R : BitVec n) : Function.Injective (ringElement R) := fun _ b h =>
  patternPoly_injective ((patternPoly_eq_modByMonic h).trans (patternPoly_eq_modByMonic (a := b) rfl).symm)

end Ring

/-- Settles O14: the multiplier is the ring's product, and a pattern is the remainder of its class. -/
theorem mulIsRemainderOfTheProduct : Obligations.MulIsRemainderOfTheProduct := fun n a b R _ =>
  patternPoly_eq_modByMonic (by rw [ringElement_gfMul, map_mul, ringElement, ringElement])

/-- At n = 0 there is one pattern; from n = 1 on the pattern 1 is the ring's 1. -/
theorem gfMul_one {n : Nat} (a R : BitVec n) : gfMul a 1#n R = a := by
  rcases Nat.eq_zero_or_pos n with rfl | hn
  · exact Subsingleton.elim _ _
  · exact ringElement_injective R (by rw [ringElement_gfMul, ringElement_one R hn, mul_one])

/-- Settles O15: each law is the ring's, carried back to patterns. -/
theorem mulIsACommutativeRingProduct : Obligations.MulIsACommutativeRingProduct := by
  refine fun n R a b c => ⟨?_, ?_, ?_, gfMul_one a R, ?_⟩ <;> apply ringElement_injective R
  · rw [ringElement_gfMul, ringElement_gfMul, mul_comm]
  · simp only [ringElement_gfMul, mul_assoc]
  · rw [ringElement_gfMul, ringElement_xor, ringElement_xor, ringElement_gfMul, ringElement_gfMul, mul_add]
  · rw [ringElement_gfMul, ringElement_zero, mul_zero]

/-! The exponentiator (41_field_arith.md R129) -/

/-- The loop multiplies r by the power of s to the k bits of the exponent from bit i on. -/
theorem ringElement_gfPowFrom {n : Nat} (R : BitVec n) (e : Word) (k i : Nat) (r s : BitVec n) :
    ringElement R (gfPowFrom e R k i r s) = ringElement R r * ringElement R s ^ (e.toNat / 2 ^ i % 2 ^ k) := by
  induction k generalizing i r s with
  | zero => simp [gfPowFrom, Nat.mod_one]
  | succ k ih =>
    have hbits : e.toNat / 2 ^ i % 2 ^ (k + 1) = e.toNat / 2 ^ i % 2 + 2 * (e.toNat / 2 ^ (i + 1) % 2 ^ k) := by
      rw [pow_succ', Nat.mod_mul, Nat.div_div_eq_div_mul, ← pow_succ]
    have hbit : ringElement R (if e.getLsbD i then gfMul r s R else r) =
        ringElement R r * ringElement R s ^ (e.toNat / 2 ^ i % 2) := by
      rw [BitVec.getLsbD, Nat.testBit_eq_decide_div_mod_eq]
      rcases Nat.mod_two_eq_zero_or_one (e.toNat / 2 ^ i) with h | h <;> simp [h, ringElement_gfMul]
    rw [gfPowFrom, ih, hbit, ringElement_gfMul, ← sq, ← pow_mul, mul_assoc, ← pow_add, ← hbits]

/-- The exponentiator is the power of the ring. -/
theorem ringElement_gfPow {n : Nat} (hn : 1 ≤ n) (R a : BitVec n) (e : Word) :
    ringElement R (gfPow a e R) = ringElement R a ^ e.toNat := by
  rw [gfPow, ringElement_gfPowFrom, ringElement_one R hn, one_mul, pow_zero, Nat.div_one, Nat.mod_eq_of_lt e.isLt]

/-- Settles O16: the power of the ring as a remainder; the power 0 is the ring's 1. -/
theorem powIsTheRingPower : Obligations.PowIsTheRingPower := by
  refine fun n a R e hn => ⟨patternPoly_eq_modByMonic ?_, ringElement_injective R ?_⟩
  · rw [ringElement_gfPow hn, map_pow, ringElement]
  · rw [ringElement_gfPow hn, ringElement_one R hn]
    exact pow_zero _

/-- Settles O19: the array holds the orbit product's coefficients below its monic term. -/
theorem orbitProductIsTheProduct : Obligations.OrbitProductIsTheProduct := by
  intro n root R hn
  obtain ⟨hlen, -⟩ := holdsCoeffs_orbitProduct hn root R
  exact ⟨hlen, coefficientPoly_orbitProduct hn root R⟩

/-! The closure of the orbit where P is irreducible (42_minpoly.md R147) -/

section Closure

variable {n : Nat} {R : BitVec n}

/-- GF(2)[x]/(P) has 2^n elements, so the n-th power of the Frobenius map is the identity. -/
theorem pow_two_pow_eq_self (h : Irreducible (reductionPoly R)) (x : AdjoinRoot (reductionPoly R)) :
    x ^ 2 ^ n = x := by
  have := Fact.mk h
  let basis := AdjoinRoot.powerBasis' (reductionPoly_monic R)
  have : Module.Finite (ZMod 2) (AdjoinRoot (reductionPoly R)) := basis.finite
  have : Finite (AdjoinRoot (reductionPoly R)) := Module.finite_of_finite (ZMod 2)
  have := Fintype.ofFinite (AdjoinRoot (reductionPoly R))
  have hcard : Fintype.card (AdjoinRoot (reductionPoly R)) = 2 ^ n := by
    rw [Module.card_eq_pow_finrank (K := ZMod 2), basis.finrank, ZMod.card, AdjoinRoot.powerBasis'_dim,
      natDegree_eq_of_degree_eq_some (reductionPoly_degree R)]
  rw [← hcard]
  exact FiniteField.pow_card x

/-- The Frobenius map of the ring: x goes to x^2. -/
noncomputable def squaring (R : BitVec n) : AdjoinRoot (reductionPoly R) →+* AdjoinRoot (reductionPoly R) :=
  (FiniteField.frobeniusAlgHom (ZMod 2) (AdjoinRoot (reductionPoly R))).toRingHom

theorem squaring_apply (x : AdjoinRoot (reductionPoly R)) : squaring R x = x ^ 2 := rfl

/-- The i-th linear factor of the orbit product. -/
noncomputable def orbitFactor (R root : BitVec n) (i : Nat) : (AdjoinRoot (reductionPoly R))[X] :=
  X + C (ringElement R root ^ 2 ^ i)

theorem orbitPoly_eq_prod (R root : BitVec n) : orbitPoly R root = ∏ i ∈ Finset.range n, orbitFactor R root i := rfl

/-- The Frobenius map takes each factor to the next. -/
theorem orbitFactor_map_squaring (root : BitVec n) (i : Nat) :
    (orbitFactor R root i).map (squaring R) = orbitFactor R root (i + 1) := by
  rw [orbitFactor, Polynomial.map_add, map_X, map_C, squaring_apply, ← pow_mul, ← pow_succ, orbitFactor]

/-- It takes the last factor to the first, so it leaves the product. -/
theorem orbitPoly_map_squaring (h : Irreducible (reductionPoly R)) (root : BitVec n) :
    (orbitPoly R root).map (squaring R) = orbitPoly R root := by
  have hlast : orbitFactor R root n = orbitFactor R root 0 := by
    rw [orbitFactor, orbitFactor, pow_two_pow_eq_self h, pow_zero, pow_one]
  have hrotate := Finset.prod_range_succ' (orbitFactor R root) n
  rw [Finset.prod_range_succ, hlast] at hrotate
  have hmonic : (orbitFactor R root 0).Monic := monic_X_add_C _
  rw [orbitPoly_eq_prod, Polynomial.map_prod, Finset.prod_congr rfl fun i _ => orbitFactor_map_squaring root i]
  exact (hmonic.isRegular.right hrotate).symm

/-- So its coefficients are fixed by squaring: each is 0 or 1. -/
theorem orbitPoly_coeff (h : Irreducible (reductionPoly R)) (root : BitVec n) (j : Nat) :
    (orbitPoly R root).coeff j = 0 ∨ (orbitPoly R root).coeff j = 1 := by
  have := Fact.mk h
  have hfixed : squaring R ((orbitPoly R root).coeff j) = (orbitPoly R root).coeff j := by
    rw [← coeff_map, orbitPoly_map_squaring h root]
  rw [squaring_apply, sq] at hfixed
  exact IsIdempotentElem.iff_eq_zero_or_one.1 hfixed

end Closure

/-- Settles O21: every entry of the array is a coefficient of the orbit product, which is 0 or 1. -/
theorem irreducibleReductionClosesEveryOrbit : Obligations.IrreducibleReductionClosesEveryOrbit := by
  intro n root R hn h
  obtain ⟨hlen, hcoeff⟩ := holdsCoeffs_orbitProduct hn root R
  refine ⟨_, minPoly_closed fun f hf => ?_⟩
  obtain ⟨j, hj, rfl⟩ := List.getElem_of_mem hf
  have helement := hcoeff j (by omega)
  rw [List.getD_eq_getElem _ _ hj] at helement
  rcases orbitPoly_coeff h root j with h0 | h1
  · exact .inl (ringElement_injective R (by rw [helement, h0, ringElement_zero]))
  · exact .inr (ringElement_injective R (by rw [helement, h1, ringElement_one R hn]))

/-! The commands SQR and POW (41_field_arith.md R127, R130) -/

/-- Settles O11: SQR's value is the multiplier's by definition, so only the two ends of the command are left. -/
theorem sqrWritesTheSquare : Obligations.SqrWritesTheSquare :=
  fun d a s hwf => ⟨decode_commandWord (i := .sqr d a) hwf, exec_of_withDegree_finishV (exec_sqr s d a)⟩

/-- Settles O12: POW's value is the exponentiator's by definition. -/
theorem powWritesTheRingPower : Obligations.PowWritesTheRingPower :=
  fun d a b s hwf => ⟨decode_commandWord (i := .pow d a b) hwf, exec_of_withDegree_finishV (exec_pow s d a b)⟩

end Sys2Proof.Machine

/-! The generator of 40_necklace.md: one step (O26), the search as the unbounded loop (O27), and that the search walks the
candidates in string order (O28). The order is Duval's: the step goes to the least prenecklace after the present one. -/

namespace Sys2Proof.Machine

open Sys2Proof

/-! One step (40_necklace.md R103) -/

/-- What a step at position t does to the first n digits: those before t stay, digit t goes from 0 to 1 (the digits
behind it were all 1), and those behind t repeat the first t. -/
structure StepsAt (n t : Nat) (a a' : Word) : Prop where
  pos : 1 ≤ t
  le : t ≤ n
  zero : digit a t = false
  ones : ∀ j, t < j → j ≤ n → digit a j = true
  before : ∀ i, i < t → digit a' i = digit a i
  one : digit a' t = true
  copied : ∀ j, t < j → j ≤ n → digit a' j = digit a' (j - t)

/-- The digits the step writes (40_necklace.md R103). -/
theorem stepsAt_copyPeriod {n t : Nat} {a : Word} (hn : n ≤ 64) (h1 : 1 ≤ t) (h2 : t ≤ n) (hzero : digit a t = false)
    (hones : ∀ j, t < j → j ≤ n → digit a j = true) :
    StepsAt n t a (copyPeriod t (n - t) (t + 1) (setDigit a t true)) where
  pos := h1
  le := h2
  zero := hzero
  ones := hones
  before i hi := by
    cases i with
    | zero => rfl
    | succ i =>
      rw [copyPeriod_before _ _ _ _ _ (by omega) (by omega) (by omega), digit_setDigit _ _ _ _ h1 (by omega) (by omega),
        if_neg (by omega)]
  one := by
    rw [copyPeriod_before _ _ _ _ _ (by omega) h1 (by omega), digit_setDigit _ _ _ _ h1 h1 (by omega), if_pos rfl]
  copied j hj hjn := copyPeriod_copied _ _ _ _ _ h1 (by omega) (by omega) (by omega) (by omega)

/-- With a digit 0 among the first NK_N, the last of them is where the step acts. -/
theorem nkStep_of_zero {k : Necklace} {t : Nat} (hn : k.n.toNat ≤ 64) (h1 : 1 ≤ t) (h2 : t ≤ k.n.toNat)
    (hzero : digit k.a t = false) (hones : ∀ j, t < j → j ≤ k.n.toNat → digit k.a j = true) :
    ∃ a', nkStep k = (⟨a', BitVec.ofNat 7 t, k.n, k.st⟩, true) ∧ StepsAt k.n.toNat t k.a a' := by
  have hlast : lastZero k.a k.n.toNat = t := lastZero_eq _ _ _ h2 (.inr hzero) hones
  rcases nkStep_cases k with ⟨-, h0⟩ | ⟨u, a', -, -, hu, rfl, hstep⟩
  · omega
  · obtain rfl : u = t := hu.symm.trans hlast
    exact ⟨_, hstep, stepsAt_copyPeriod hn h1 h2 hzero hones⟩

/-- With none, the generator is exhausted. -/
theorem nkStep_of_ones {k : Necklace} (hones : ∀ j, 1 ≤ j → j ≤ k.n.toNat → digit k.a j = true) :
    nkStep k = ({ k with st := .exhausted }, false) := by
  have hlast : lastZero k.a k.n.toNat = 0 :=
    lastZero_eq _ _ _ (by omega) (.inl rfl) fun j hj => hones j hj
  rcases nkStep_cases k with ⟨hstep, -⟩ | ⟨u, a', hu1, -, hu, -, -⟩
  · exact hstep
  · omega

/-- Settles O26: the digits of the step, and those above NK_N, which it does not touch. -/
theorem necklaceStepCopiesThePeriod : Obligations.NecklaceStepCopiesThePeriod := by
  refine fun k hn => ⟨fun t h1 h2 hzero hones => ?_, nkStep_of_ones⟩
  obtain ⟨a', hstep, hdigits⟩ := nkStep_of_zero hn h1 h2 hzero hones
  refine ⟨a', hstep, hdigits.before, hdigits.one, hdigits.copied, fun j hj => ?_⟩
  have habove := nkStep_above k j hj
  rwa [hstep] at habove

/-! The search is the loop (40_necklace.md R106; log 10) -/

theorem nkAccepted_iff (k : Necklace) : nkAccepted k = true ↔ k.p = k.n ∧ digit k.a k.n.toNat = true := by
  simp [nkAccepted]

/-- The search after a step that goes on: accept, or search again; the bound on the passes makes no difference. -/
theorem nkSeek_of_step {k k' : Necklace} (hn : k.n.toNat ≤ 64) (hstep : nkStep k = (k', true)) :
    nkSeek k = if k'.p = k'.n ∧ digit k'.a k'.n.toNat = true then (k', true) else nkSeek k' := by
  have hn' : k'.n = k.n := by
    rcases nkStep_cases k with ⟨h, -⟩ | ⟨t, a', -, -, -, -, h⟩ <;> rw [h] at hstep <;> cases hstep
    rfl
  have hgreater := nkStep_greater hn hstep
  have hpow : 2 ^ k.n.toNat ≤ 2 ^ 64 := Nat.pow_le_pow_right two_pos hn
  have hbound : nkSeekFrom (2 ^ 64 - 1 + 1) k' = nkSeekFrom (2 ^ 64 - 1) k' :=
    nkSeekFrom_stable _ k' (by rw [hn']; exact hn) (by rw [hn']; omega)
  calc nkSeek k = nkSeekFrom (2 ^ 64 - 1 + 1) k := rfl
    _ = if nkAccepted k' then (k', true) else nkSeekFrom (2 ^ 64 - 1) k' := by rw [nkSeekFrom, hstep]
    _ = _ := by simp only [nkAccepted_iff, ← hbound]; rfl

/-- The search after a step that stops. -/
theorem nkSeek_of_stop {k k' : Necklace} (hstep : nkStep k = (k', false)) : nkSeek k = (k', false) := by
  change nkSeekFrom (2 ^ 64 - 1 + 1) k = _
  rw [nkSeekFrom, hstep]

/-- Settles O27: the two answers of the step. -/
theorem necklaceSearchIsTheLoop : Obligations.NecklaceSearchIsTheLoop := by
  intro k hn
  cases hstep : nkStep k with
  | mk k' goesOn =>
    cases goesOn with
    | false => exact nkSeek_of_stop hstep
    | true => exact nkSeek_of_step hn hstep

/-! String order (40_necklace.md R100) -/

theorem lexLess_trans {n : Nat} {a b c : Word} (hab : lexLess n a b) (hbc : lexLess n b c) : lexLess n a c := by
  obtain ⟨i, hi1, hin, hagree, ha, hb⟩ := hab
  obtain ⟨j, hj1, hjn, hagree', hb', hc⟩ := hbc
  rcases lt_trichotomy i j with h | rfl | h
  · exact ⟨i, hi1, hin, fun m h1 h2 => (hagree m h1 h2).trans (hagree' m h1 (by omega)), ha, hagree' i hi1 h ▸ hb⟩
  · rw [hb] at hb'; cases hb'
  · exact ⟨j, hj1, hjn, fun m h1 h2 => (hagree m h1 (by omega)).trans (hagree' m h1 h2), hagree j hj1 h ▸ hb', hc⟩

/-- The least position up to n at which two strings of digits differ, or none. -/
theorem exists_first_difference (n : Nat) (f g : Nat → Bool) :
    (∀ j, 1 ≤ j → j ≤ n → f j = g j) ∨
    ∃ i, 1 ≤ i ∧ i ≤ n ∧ (∀ j, 1 ≤ j → j < i → f j = g j) ∧ f i ≠ g i := by
  induction n with
  | zero => exact .inl fun j _ _ => by omega
  | succ n ih =>
    rcases ih with hsame | ⟨i, hi1, hin, hagree, hdiff⟩
    · by_cases hlast : f (n + 1) = g (n + 1)
      · refine .inl fun j h1 h2 => ?_
        rcases Nat.lt_or_eq_of_le h2 with h | rfl
        · exact hsame j h1 (by omega)
        · exact hlast
      · exact .inr ⟨n + 1, by omega, le_rfl, fun j h1 h2 => hsame j h1 (by omega), hlast⟩
    · exact .inr ⟨i, hi1, by omega, hagree, hdiff⟩

/-! The step from a prenecklace -/

section Step

variable {n t : Nat} {a a' b : Word}

theorem StepsAt.greater (h : StepsAt n t a a') : lexLess n a a' :=
  ⟨t, h.pos, h.le, fun j _ hj => (h.before j hj).symm, h.zero, h.one⟩

/-- The step leaves a prenecklace. Shifts by t and more reduce to smaller ones by the period; a smaller shift that reaches
digit t would give a 1 at digit t of the string before the step. -/
theorem StepsAt.prenecklace (h : StepsAt n t a a') (ha : Prenecklace n a) : Prenecklace n a' := by
  intro k
  induction k using Nat.strong_induction_on with
  | h k ih =>
    intro i hi hkin hagree hone
    have hpos := h.pos
    rcases Nat.eq_zero_or_pos k with rfl | hk
    · rwa [Nat.zero_add]
    by_cases hkt : t ≤ k
    · have hshift : ∀ j, 1 ≤ j → k + j ≤ n → digit a' (k + j) = digit a' (k - t + j) := fun j h1 h2 => by
        rw [h.copied (k + j) (by omega) h2, show k + j - t = k - t + j by omega]
      rw [hshift i hi hkin]
      refine ih (k - t) (by omega) i hi (by omega) (fun j h1 h2 => ?_) hone
      rw [← hshift j h1 (by omega)]
      exact hagree j h1 h2
    -- the digits of the shift before digit t are those of `a`
    have hbefore : ∀ m, m ≤ i → k + m ≤ t → ∀ j, 1 ≤ j → j < m → digit a (k + j) = digit a j := fun m _ _ j h1 h2 => by
      rw [← h.before (k + j) (by omega), ← h.before j (by omega)]
      exact hagree j h1 (by omega)
    rcases lt_trichotomy (k + i) t with hlt | heq | hgt
    · rw [h.before _ hlt]
      rw [h.before i (by omega)] at hone
      exact ha k i hi hkin (hbefore i le_rfl (by omega)) hone
    · rw [heq]
      exact h.one
    · exfalso
      have hreach : digit a (t - k) = true := by
        rw [← h.before _ (by omega), ← hagree (t - k) (by omega) (by omega), show k + (t - k) = t by omega]
        exact h.one
      have hle := h.le
      have hdigit := ha k (t - k) (by omega) (by omega) (hbefore (t - k) (by omega) (by omega)) hreach
      rw [show k + (t - k) = t by omega, h.zero] at hdigit
      cases hdigit

/-- A step at the last digit leaves a Lyndon word: a proper part at the end that equalled the beginning would give a 1 at
the last digit of the string before the step. -/
theorem StepsAt.lyndon (h : StepsAt n n a a') (ha : Prenecklace n a) : Lyndon n a' := by
  intro k hk hkn
  rcases exists_first_difference (n - k) (digit a') (fun j => digit a' (k + j)) with
    hsame | ⟨i, hi, hin, hagree, hdiff⟩
  · exfalso
    have hreach : digit a (n - k) = true := by
      rw [← h.before _ (by omega), hsame (n - k) (by omega) le_rfl, show k + (n - k) = n by omega]
      exact h.one
    have hdigit := ha k (n - k) (by omega) (by omega) (fun j h1 h2 => by
      rw [← h.before _ (by omega), ← h.before _ (by omega)]
      exact (hsame j h1 (by omega)).symm) hreach
    rw [show k + (n - k) = n by omega, h.zero] at hdigit
    cases hdigit
  · have hrot : ∀ j, j ≤ n - k → rotatedDigit n k a' j = digit a' (k + j) := fun j hj => by
      rw [rotatedDigit, if_pos (by omega), Nat.add_comm]
    have hup := h.prenecklace ha k i hi (by omega) fun j h1 h2 => (hagree j h1 h2).symm
    have hzero : digit a' i = false := by
      by_contra hne
      have hone : digit a' i = true := by simpa using hne
      exact hdiff (hone.trans (hup hone).symm)
    refine ⟨i, hi, by omega, fun j h1 h2 => ?_, hzero, ?_⟩
    · rw [hrot j (by omega)]
      exact hagree j h1 h2
    · rw [hrot i hin]
      simpa [hzero] using hdiff.symm

/-- No prenecklace lies between: one that is greater than the string before the step is the string after it, or greater. -/
theorem StepsAt.least (h : StepsAt n t a a') (hb : Prenecklace n b) (hab : lexLess n a b) :
    (∀ j, 1 ≤ j → j ≤ n → digit b j = digit a' j) ∨ lexLess n a' b := by
  obtain ⟨i, hi, hin, hagree, hai, hbi⟩ := hab
  have hit : i ≤ t := by
    by_contra hgt
    rw [h.ones i (by omega) hin] at hai
    cases hai
  rcases Nat.lt_or_eq_of_le hit with hlt | rfl
  · refine .inr ⟨i, hi, hin, fun j h1 h2 => (h.before j (by omega)).trans (hagree j h1 h2), ?_, hbi⟩
    rw [h.before i hlt, hai]
  rcases exists_first_difference n (digit b) (digit a') with hsame | ⟨m, hm, hmn, hbefore, hdiff⟩
  · exact .inl hsame
  -- up to digit i the two agree, so they part behind it
  have him : i < m := by
    by_contra hle
    rcases Nat.lt_or_eq_of_le (Nat.le_of_not_lt hle) with hlt | rfl
    · exact hdiff ((hagree m hm hlt).symm.trans (h.before m hlt).symm)
    · exact hdiff (hbi.trans h.one.symm)
  have hzero : digit a' m = false := by
    by_contra hne
    have hone : digit b (m - i) = true := by
      rw [hbefore (m - i) (by omega) (by omega), ← h.copied m him hmn]
      simpa using hne
    have hperiod : ∀ j, 1 ≤ j → j < m - i → digit b (i + j) = digit b j := fun j h1 h2 => by
      rw [hbefore (i + j) (by omega) (by omega), h.copied (i + j) (by omega) (by omega), Nat.add_sub_cancel_left,
        hbefore j h1 (by omega)]
    have hbm := hb i (m - i) (by omega) (by omega) hperiod hone
    rw [show i + (m - i) = m by omega] at hbm
    rw [hbm] at hdiff
    exact hne (by simpa using hdiff)
  refine .inr ⟨m, hm, hmn, fun j h1 h2 => (hbefore j h1 h2).symm, hzero, ?_⟩
  simpa [hzero] using hdiff

end Step

/-! Lyndon words (40_necklace.md R100) -/

/-- A Lyndon word is a prenecklace: a part is compared as the rotation that starts with it. -/
theorem Lyndon.prenecklace {n : Nat} {b : Word} (h : Lyndon n b) : Prenecklace n b := by
  intro k i hi hkin hagree hone
  rcases Nat.eq_zero_or_pos k with rfl | hk
  · rwa [Nat.zero_add]
  obtain ⟨m, hm, -, hsame, hzero, hrotone⟩ := h k hk (by omega)
  have hrot : ∀ j, j ≤ i → rotatedDigit n k b j = digit b (k + j) := fun j hj => by
    rw [rotatedDigit, if_pos (by omega), Nat.add_comm]
  rcases lt_trichotomy m i with hlt | rfl | hgt
  · rw [hrot m (by omega), hagree m hm hlt, hzero] at hrotone
    cases hrotone
  · rw [hzero] at hone
    cases hone
  · rw [← hrot i le_rfl, ← hsame i hi hgt]
    exact hone

/-- A Lyndon word has no period t below n: the rotations by t and by n - t would contradict each other. -/
theorem Lyndon.no_period {n t : Nat} {b : Word} (h : Lyndon n b) (ht : 1 ≤ t) (htn : t < n)
    (hperiod : ∀ j, t < j → j ≤ n → digit b j = digit b (j - t)) : False := by
  obtain ⟨i, hi, hin, hsame, hzero, hone⟩ := h t ht htn
  obtain ⟨m, hm, hmn, hsame', hzero', hone'⟩ := h (n - t) (by omega) (by omega)
  have hrot : ∀ j, n - t < j → rotatedDigit n t b j = digit b (j + t - n) := fun j hj => by
    rw [rotatedDigit, if_neg (by omega)]
  have hrot' : ∀ j, j ≤ t → rotatedDigit n (n - t) b j = digit b (n - t + j) := fun j hj => by
    rw [rotatedDigit, if_pos (by omega), Nat.add_comm]
  -- the rotation by t repeats the beginning up to digit n - t
  have hlate : n - t < i := by
    by_contra hle
    rw [rotatedDigit, if_pos (by omega), hperiod _ (by omega) (by omega), Nat.add_sub_cancel, hzero] at hone
    cases hone
  obtain ⟨q, rfl⟩ : ∃ q, i = n - t + q := ⟨i - (n - t), by omega⟩
  rw [hrot _ hlate, show n - t + q + t - n = q by omega] at hone
  rcases lt_trichotomy m q with hlt | rfl | hgt
  · rw [hrot' m (by omega), hsame (n - t + m) (by omega) (by omega), hrot _ (by omega),
      show n - t + m + t - n = m by omega, hzero'] at hone'
    cases hone'
  · rw [hzero'] at hone
    cases hone
  · rw [hsame' q (by omega) hgt, hrot' q (by omega), hzero] at hone
    cases hone

/-! The search from a prenecklace (40_necklace.md R104, R106) -/

/-- Only a step at the last digit gives a Lyndon word: after any other the string has a period. -/
theorem StepsAt.last_of_lyndon {n t : Nat} {a a' b : Word} (h : StepsAt n t a a') (hb : Lyndon n b)
    (hsame : ∀ j, 1 ≤ j → j ≤ n → digit b j = digit a' j) : t = n := by
  by_contra hne
  have hpos := h.pos
  have hle := h.le
  refine hb.no_period h.pos (by omega) fun j h1 h2 => ?_
  rw [hsame j (by omega) h2, h.copied j h1 h2, hsame (j - t) (by omega) (by omega)]

/-- Nothing is greater than the string of ones. -/
theorem not_lexLess_of_ones {n : Nat} {a b : Word} (h : ∀ j, 1 ≤ j → j ≤ n → digit a j = true) : ¬ lexLess n a b := by
  rintro ⟨i, hi, hin, -, hzero, -⟩
  rw [h i hi hin] at hzero
  cases hzero

/-- Two words that hold n digits and agree on them are the same word. -/
theorem eq_of_first_digits {n : Nat} {a b : Word} (ha : a >>> n = 0#64) (hb : b >>> n = 0#64)
    (h : ∀ j, 1 ≤ j → j ≤ n → digit a j = digit b j) : a = b := by
  refine eq_of_digits fun j h1 _ => ?_
  by_cases hj : j ≤ n
  · exact h j h1 hj
  · rw [(high_zero_iff a n).1 ha j (by omega), (high_zero_iff b n).1 hb j (by omega)]

/-- A string has a last digit 0 among its first n, or is all ones there. -/
theorem ones_or_exists_last_zero (n : Nat) (a : Word) :
    (∀ j, 1 ≤ j → j ≤ n → digit a j = true) ∨
    ∃ t, 1 ≤ t ∧ t ≤ n ∧ digit a t = false ∧ ∀ j, t < j → j ≤ n → digit a j = true := by
  have hle := lastZero_le a n
  have habove := lastZero_above a n
  rcases Nat.eq_zero_or_pos (lastZero a n) with h | h
  · exact .inl fun j h1 h2 => habove j (by omega) h2
  · exact .inr ⟨lastZero a n, h, hle, lastZero_zero a n (by omega), habove⟩

/-- What the search says of the candidates after the present string: it found the least, or there is none. -/
def SeekSpec (k : Necklace) : Necklace × Bool → Prop
  | (k', true) =>
    Prenecklace k.n.toNat k'.a ∧ Candidate k.n.toNat k'.a ∧ lexLess k.n.toNat k.a k'.a ∧
      ∀ b, Candidate k.n.toNat b → lexLess k.n.toNat k.a b → b = k'.a ∨ lexLess k.n.toNat k'.a b
  | (_, false) => ∀ b, Candidate k.n.toNat b → ¬ lexLess k.n.toNat k.a b

/-- A step that gives a candidate gives the least one that is greater. -/
theorem seekSpec_of_last_digit {k k' : Necklace} (hstep : StepsAt k.n.toNat k.n.toNat k.a k'.a)
    (ha : Prenecklace k.n.toNat k.a) (hhigh : k'.a >>> k.n.toNat = 0#64) : SeekSpec k (k', true) := by
  refine ⟨hstep.prenecklace ha, ⟨hstep.lyndon ha, hstep.one, hhigh⟩, hstep.greater, ?_⟩
  rintro b ⟨hlyndon, -, hbhigh⟩ hab
  exact (hstep.least hlyndon.prenecklace hab).imp_left (eq_of_first_digits hbhigh hhigh)

/-- After a step that gives none, the candidates that are greater are the same. -/
theorem seekSpec_of_period {k k' : Necklace} {t : Nat} {r : Necklace × Bool} (hstep : StepsAt k.n.toNat t k.a k'.a)
    (ht : t ≠ k.n.toNat) (hn : k'.n = k.n) (hr : SeekSpec k' r) : SeekSpec k r := by
  have hskip : ∀ b, Candidate k.n.toNat b → lexLess k.n.toNat k.a b → lexLess k.n.toNat k'.a b := by
    rintro b ⟨hlyndon, -, -⟩ hab
    exact (hstep.least hlyndon.prenecklace hab).resolve_left fun hsame =>
      ht (hstep.last_of_lyndon hlyndon hsame)
  obtain ⟨k'', found⟩ := r
  cases found with
  | true =>
    obtain ⟨hpre, hcand, hless, hleast⟩ := hr
    rw [hn] at hpre hcand hless hleast
    exact ⟨hpre, hcand, lexLess_trans hstep.greater hless, fun b hb hab => hleast b hb (hskip b hb hab)⟩
  | false =>
    have hnone : ∀ b, Candidate k'.n.toNat b → ¬ lexLess k'.n.toNat k'.a b := hr
    rw [hn] at hnone
    exact fun b hb hab => hnone b hb (hskip b hb hab)

/-- The search from a prenecklace, by induction on the strings that are left. -/
theorem nkSeek_spec (k : Necklace) (hn : k.n.toNat ≤ 64) (hhigh : k.a >>> k.n.toNat = 0#64)
    (ha : Prenecklace k.n.toNat k.a) : SeekSpec k (nkSeek k) := by
  induction hleft : 2 ^ k.n.toNat - lexValue k.a k.n.toNat using Nat.strong_induction_on generalizing k with
  | h left ih =>
    rcases ones_or_exists_last_zero k.n.toNat k.a with hones | ⟨t, h1, h2, hzero, hones⟩
    · rw [nkSeek_of_stop (nkStep_of_ones hones)]
      exact fun b _ => not_lexLess_of_ones hones
    obtain ⟨a', hstep, hdigits⟩ := nkStep_of_zero hn h1 h2 hzero hones
    have hhigh' : a' >>> k.n.toNat = 0#64 := (high_zero_iff _ _).2 fun j hj => by
      have habove := nkStep_above k j hj
      rw [hstep] at habove
      exact habove.trans ((high_zero_iff _ _).1 hhigh j hj)
    have hperiod : BitVec.ofNat 7 t = k.n ↔ t = k.n.toNat := by
      rw [← BitVec.toNat_inj, BitVec.toNat_ofNat, Nat.mod_eq_of_lt (by omega)]
    rw [nkSeek_of_step hn hstep]
    by_cases ht : t = k.n.toNat
    · have hlast : digit a' k.n.toNat = true := ht ▸ hdigits.one
      rw [if_pos ⟨hperiod.2 ht, hlast⟩]
      exact seekSpec_of_last_digit (ht ▸ hdigits) ha hhigh'
    · rw [if_neg fun h => ht (hperiod.1 h.1)]
      have hgreater : lexValue k.a k.n.toNat < lexValue a' k.n.toNat := nkStep_greater hn hstep
      have hroom := lexValue_lt a' k.n.toNat
      refine seekSpec_of_period (k' := ⟨a', BitVec.ofNat 7 t, k.n, k.st⟩) hdigits ht rfl ?_
      exact ih (2 ^ k.n.toNat - lexValue a' k.n.toNat) (by omega) _ hn hhigh' (hdigits.prenecklace ha) rfl

/-- NKINIT's string has no digit 1 to compare. -/
theorem prenecklace_nkStart (n : BitVec 7) : Prenecklace n.toNat (nkStart n).a := by
  intro k i _ _ _ hone
  simp [nkStart, digit] at hone

/-- Settles O28: what the search keeps, and what it says of the candidates. -/
theorem necklaceSearchFindsTheNextCandidate : Obligations.NecklaceSearchFindsTheNextCandidate := by
  refine ⟨prenecklace_nkStart, fun k _ hn hhigh ha => ⟨fun k' hk => ?_, fun k' hk => ?_⟩⟩
  all_goals
    have hspec := nkSeek_spec k hn hhigh ha
    obtain ⟨hkn, -, hfound, hend⟩ := nkSeek_frame hk
    rw [hk] at hspec
  · obtain ⟨hst, hp, -⟩ := hfound rfl
    exact ⟨hkn, hp, hst, hspec⟩
  · exact ⟨hkn, hend rfl, hspec⟩

end Sys2Proof.Machine

/-! What a step of the machine can do, said once: the relations `RunStep`, `CommandStep`, `WriteEffect` and `MachineStep`.
From them: the step of the decoded command (O6), the answer to every event (O8) and which commands write which state
(O56). -/

namespace Sys2Proof.Machine

open Sys2Proof

/-! Everything RUN, a command, a write and an event can do -/

/-- The core steps of RUN after its initialisation (44_run.md R183 to R191). -/
inductive RunStep (s : State) : State → Prop
  | discard (hd : s.done = true) : RunStep s { s with pend := [] }
  | held : RunStep s s
  | push (r : Result) (rest : List Result) (hp : s.pend = r :: rest) (hd : s.done = false)
      (hspace : s.fifo.length < s.fifoDepth.toNat) : RunStep s { (s.countResult r).pushResult r with pend := rest }
  | count (r : Result) (rest : List Result) (hp : s.pend = r :: rest) : RunStep s { s.countResult r with pend := rest }
  | final (hp : s.pend = []) : RunStep s s.complete
  | exhausted (k : Necklace) (hp : s.pend = []) (hk : nkSeek s.nk = (k, false)) : RunStep s { s with nk := k }
  | candidate (k : Necklace) (l : List Result) (hl : l.length ≤ 2) (hk : nkSeek s.nk = (k, true)) :
      RunStep s { s with nk := k, pend := l }
  | openOrbit (k : Necklace) (hp : s.pend = []) (hk : nkSeek s.nk = (k, true)) :
      RunStep s { s.failedWith ⟨.arithInvariant, s.cmd, k.a⟩ with nk := k }

/-- What the command `i` can do in one core step (10_state.md R48). -/
inductive CommandStep (s : State) : Instr → State → Prop
  | wrote {i : Instr} (x : Operand) (hi : writesOnlyV i) : CommandStep s i (s.wrote i.rd x)
  | badDegree {i : Instr} (hn : i.readsDegree = true) (hd : ¬ s.DegreeLegal) (hq : i = .run → s.seq ≠ .runLoop) :
      CommandStep s i s.failedDegree
  | openOrbit {i : Instr} (data : Word) (hi : ∃ d a, i = .minpe d a ∨ i = .minpr d a) :
      CommandStep s i (s.failedWith ⟨.arithInvariant, s.cmd, data⟩)
  | nop : CommandStep s .nop s.complete
  | classified (d a b : RegNum) (x : Operand) (p q r : Bool) :
      CommandStep s (.classify d a b) { s.wrote d x with flags := ⟨p, q, r, s.flags.x⟩ }
  | started (hd : s.DegreeLegal) :
      CommandStep s .nkinit
        { s with nk := nkStart s.degree, flags := { s.flags with x := false }, seq := .idle, cmdDone := true }
  | notActive (d : RegNum) :
      CommandStep s (.nknext d) { s with flags := { s.flags with x := true }, seq := .idle, cmdDone := true }
  | yielded (d : RegNum) (k : Necklace) (hst : s.nk.st = .active) (hk : nkSeek s.nk = (k, true)) :
      CommandStep s (.nknext d) { s.wrote d (zext65 k.a) with nk := k, flags := { s.flags with x := false } }
  | ended (d : RegNum) (k : Necklace) (hst : s.nk.st = .active) (hk : nkSeek s.nk = (k, false)) :
      CommandStep s (.nknext d) { s with nk := k, flags := { s.flags with x := true }, seq := .idle, cmdDone := true }
  | initialised (hd : s.DegreeLegal) : CommandStep s .run s.runInit
  | running {t : State} (hq : s.seq = .runLoop) (h : RunStep s t) : CommandStep s .run t

/-- What a performed write can do that is no reset (10_state.md R23, R46, 20_memory.md R67). -/
inductive WriteEffect (s : State) : State → Prop
  | control (abort clear : Bool) : WriteEffect s
      { s with
        aborted := s.aborted || (abort && s.running && !s.done), done := s.done || (abort && s.running),
        errRec := if clear then none else s.errRec }
  | accepted (w : Word) (hq : s.seq = .idle) : WriteEffect s (s.accept w)
  | cmdBusy (w : Word) : WriteEffect s (s.raiseError .cmdWhileBusy 0x030#64 w)
  | irqStatus (c : Bool) : WriteEffect s { s with cmdDone := c }
  | popped : WriteEffect s s.popFifo
  | lockedBusy (off : WinOffset) (w : Word) (hoff : LockedOffset off) :
      WriteEffect s (s.raiseError .writeWhileBusy (off.setWidth 64) w)
  | stored (w : Word) (r : WinReg) (hq : s.seq = .idle) : WriteEffect s (s.store w r)
  | irqEn (x : BitVec 3) : WriteEffect s { s with irqEn := x }
  | ignored : WriteEffect s s

/-- What an event can do. -/
inductive MachineStep (s : State) : State → Prop
  | idle : MachineStep s s
  | command {i : Instr} {t : State} (hq : s.seq ≠ .idle) (hd : decode s.cmd = .ok i) (h : CommandStep s i t) :
      MachineStep s t
  | illegal (hq : s.seq ≠ .idle) {e : DecodeReject} (hd : decode s.cmd = .error e) :
      MachineStep s (s.failedWith ⟨.illegalCommand, s.cmd, 0#64⟩)
  | reset : MachineStep s s.toReset
  | read (x : Word) (m : Nat) : MachineStep s { s with rdata := x, draws := m }
  | write {t : State} (h : WriteEffect s t) : MachineStep s t

/-- A result step is one of the relation's. -/
theorem runStep_of_runResult {s : State} {r : Result} {rest : List Result} (hp : s.pend = r :: rest) :
    RunStep s (s.runResult r rest) := by
  rcases s.runResult_cases r rest with ⟨hd, h⟩ | ⟨-, -, -, h⟩ | ⟨hd, -, hspace, h⟩ | ⟨-, -, h⟩ <;> rw [h]
  · exact .discard hd
  · exact .held
  · exact .push r rest hp hd hspace
  · exact .count r rest hp

theorem runStep_of_runCandidate {s : State} (hp : s.pend = []) : RunStep s s.runCandidate := by
  rcases s.runCandidate_cases with ⟨k, hk, h⟩ | ⟨k, hk, ⟨l, hl, h⟩ | h⟩ <;> rw [h]
  · exact .exhausted k hp hk
  · exact .candidate k l hl hk
  · exact .openOrbit k hp hk

/-- What RUN's later steps answer is one of the relation's states. -/
theorem runStep_of_runStep (s : State) : RunStep s s.runStep := by
  rcases s.runStep_cases with ⟨r, rest, hp, h⟩ | ⟨hp, -, h⟩ | ⟨hp, -, -, h⟩ <;> rw [h]
  · exact runStep_of_runResult hp
  · exact .final hp
  · exact runStep_of_runCandidate hp

/-- What a command answers is one of the relation's states. -/
theorem commandStep_of_exec {s t : State} {i : Instr} (h : exec i s = .next t) : CommandStep s i t := by
  cases i
  case nop => cases h; exact .nop
  case classify =>
    rcases exec_classify_cases s h with ⟨x, p, q, r, rfl⟩ | ⟨hd, rfl⟩
    · exact .classified _ _ _ x p q r
    · exact .badDegree rfl hd (by simp)
  case nkinit =>
    rcases exec_nkinit_cases s h with ⟨hd, rfl⟩ | ⟨hd, rfl⟩
    · exact .started hd
    · exact .badDegree rfl hd (by simp)
  case nknext d =>
    rcases exec_nknext_cases s h with ⟨-, rfl⟩ | ⟨hst, k, _ | _, hk, rfl⟩
    · exact .notActive d
    · exact .ended d k hst hk
    · exact .yielded d k hst hk
  case run =>
    by_cases hq : s.seq = .runLoop
    · rw [exec_run_loop s hq] at h
      cases h
      exact .running hq (runStep_of_runStep s)
    · rcases exec_run_first_cases s hq h with ⟨hd, rfl⟩ | ⟨hd, rfl⟩
      · exact .initialised hd
      · exact .badDegree rfl hd fun _ => hq
  all_goals
    rcases exec_writesOnlyV s (by trivial) h with ⟨x, rfl⟩ | ⟨hd, hn, rfl⟩ | ⟨hi, data, rfl⟩
    · exact .wrote x (by trivial)
    · exact .badDegree hn hd (by simp)
    · exact .openOrbit data hi

/-- A turn of the core is one of the relation's steps. -/
theorem machineStep_of_coreStep {s t : State} (h : coreStep s = .next t) : MachineStep s t := by
  rcases coreStep_cases s h with ⟨-, rfl⟩ | ⟨hq, i, hd, h⟩ | ⟨hq, ⟨e, hd⟩, rfl⟩
  · exact .idle
  · exact .command hq hd (commandStep_of_exec h)
  · exact .illegal hq hd

/-- A write at a multiple of 8 resets the machine by SRST, or is one of the relation's. -/
theorem writeEffect_of_writeReg (s : State) {off : WinOffset} (w : Word) (haligned : off.toNat % 8 = 0) :
    winRegAt off = .ctrl ∧ w.getLsbD 1 = true ∧ s.writeReg off (winRegAt off) w = s.toReset ∨
    WriteEffect s (s.writeReg off (winRegAt off) w) := by
  rcases s.writeReg_cases off (winRegAt off) w with ⟨hr, h⟩ | ⟨-, hq, h⟩ | ⟨-, -, h⟩ | ⟨-, h⟩ | ⟨-, h⟩ | ⟨hl, -, h⟩ |
    ⟨-, hq, h⟩ | ⟨hl, -, h⟩ <;> rw [h]
  · cases hsrst : w.getLsbD 1 with
    | true => exact .inl ⟨hr, rfl, by rw [State.writeCtrl, hsrst, if_pos rfl]⟩
    | false =>
      rw [s.writeCtrl_without_srst hsrst]
      exact .inr (.control _ _)
  · exact .inr (.accepted w hq)
  · exact .inr (.cmdBusy w)
  · exact .inr (.irqStatus _)
  · exact .inr .popped
  · exact .inr (.lockedBusy off w ((winRegAt_locked off haligned).1 hl))
  · exact .inr (.stored w _ hq)
  · rcases s.store_unlocked w _ hl with h | ⟨-, h⟩ <;> rw [h]
    · exact .inr .ignored
    · exact .inr (.irqEn _)

/-- An event takes the state, with one more move counted or not, to one of the relation's states. -/
theorem machineStep_of_eventStep {s t : State} {ev : Event} (h : eventStep ev s = .next t) :
    MachineStep s t ∨ MachineStep s.tick t := by
  rcases eventStep_cases s h with ⟨-, h⟩ | ⟨-, rfl⟩ | ⟨acc, -, -, rfl⟩ | ⟨acc, w, -, hp, rfl⟩
  · exact .inr (machineStep_of_coreStep h)
  · exact .inr .reset
  · rw [s.readReg_eq]
    exact .inl (.read _ _)
  · obtain ⟨-, haligned, -⟩ := acc.performed_iff.1 hp
    rcases writeEffect_of_writeReg s.tick w haligned with ⟨-, -, h⟩ | h
    · rw [h]
      exact .inr .reset
    · exact .inr (.write h)

/-- A step does what its event does, to a state that differs in the model's own fields only. -/
theorem machineStep_of_step {s t : State} (h : step s = .next t) :
    ∃ evs moves, MachineStep (s.withOwn evs s.rdata s.draws moves) t := by
  rcases step_cases s h with ⟨-, h⟩ | ⟨ev, evs, -, h⟩
  · exact ⟨s.schedule, s.moves + 1, machineStep_of_coreStep h⟩
  · rcases machineStep_of_eventStep h with h | h
    · exact ⟨evs, s.moves, h⟩
    · exact ⟨evs, s.moves + 1, h⟩

/-- What every event keeps, whatever the model's own fields hold, every step keeps. -/
theorem step_keeps {P : State → Prop} (hown : ∀ s evs x m k, P s → P (s.withOwn evs x m k))
    (hkeeps : ∀ s t, P s → MachineStep s t → P t) {s t : State} (hs : P s) (h : step s = .next t) : P t := by
  obtain ⟨evs, moves, hstep⟩ := machineStep_of_step h
  exact hkeeps _ t (hown s evs s.rdata s.draws moves hs) hstep

/-! The step (20_memory.md R64, R71) -/

/-- Settles O6: the core's turn, and a word placed in front of it. -/
theorem stepRunsTheDecodedCommand : Obligations.StepRunsTheDecodedCommand := by
  refine fun i s => ⟨fun hq hd => ⟨coreStep_ok s.tick hq hd, fun hnil => ?_⟩, coreStep_idle s.tick, fun w hd => ?_⟩
  · rw [step_nil s hnil]
    exact coreStep_ok s.tick hq hd
  · have hw : BitVec.ofNat 64 (w.toNat % 2 ^ 64) = w := by
      rw [Nat.mod_eq_of_lt w.isLt, BitVec.ofNat_toNat, BitVec.setWidth_eq]
    rw [State.withFetchWord, hw]
    exact coreStep_ok (s.accept w).tick (by simp) hd

/-- An event answers a next state, but for an access that is not performed. -/
theorem eventStep_next_or_refused (ev : Event) (s : State) :
    (∃ t, eventStep ev s = .next t) ∨
    ∃ acc, (ev = .host (.read acc) ∨ ∃ w, ev = .host (.write acc w)) ∧ ¬ acc.performed = true ∧
      eventStep ev s = .refused (.unperformedAccess acc) := by
  cases ev with
  | core => exact .inl (coreStep_next s.tick)
  | rst => exact .inl ⟨_, rfl⟩
  | host tx =>
    cases tx with
    | read acc =>
      by_cases hp : acc.performed = true
      · exact .inl ⟨_, if_pos hp⟩
      · exact .inr ⟨acc, .inl rfl, hp, if_neg hp⟩
    | write acc w =>
      by_cases hp : acc.performed = true
      · exact .inl ⟨_, if_pos hp⟩
      · exact .inr ⟨acc, .inr ⟨w, rfl⟩, hp, if_neg hp⟩

/-- Settles O8: by the next event, the core's turn where none is listed. -/
theorem onlyUnperformedAccessesAreRefused : Obligations.OnlyUnperformedAccessesAreRefused := by
  intro s
  cases hs : s.schedule with
  | nil =>
    rw [step_nil s hs]
    exact .inl (coreStep_next s.tick)
  | cons ev evs =>
    rw [step_cons s hs]
    refine (eventStep_next_or_refused ev _).imp_right ?_
    rintro ⟨acc, hev, hp, h⟩
    refine ⟨acc, evs, ?_, mt acc.performed_iff.2 hp, h⟩
    rcases hev with rfl | ⟨w, rfl⟩
    · exact .inl rfl
    · exact .inr ⟨w, rfl⟩

/-! Which commands write which state (10_state.md R48) -/

/-- `s` with all that RUN may write taken from `t`: the operands, the flags, CMD, the configuration and the model's own
fields stay those of `s`. -/
def State.withRunState (s t : State) : State :=
  { s with
    nk := t.nk, irrCount := t.irrCount, primCount := t.primCount, emitCount := t.emitCount, done := t.done
    aborted := t.aborted, fifo := t.fifo, pend := t.pend, seq := t.seq, cmdDone := t.cmdDone, errRec := t.errRec }

/-- RUN after its initialisation leaves the operands, the flags, CMD, the configuration and the model's own fields. -/
theorem RunStep.frame {s t : State} (h : RunStep s t) : t = s.withRunState t := by
  cases h <;> rfl

theorem RunStep.v {s t : State} (h : RunStep s t) : t.v = s.v := by
  rw [h.frame]
  rfl

theorem RunStep.flags {s t : State} (h : RunStep s t) : t.flags = s.flags := by
  rw [h.frame]
  rfl

/-- RUN leaves the core idle only in a step that completes it. -/
theorem RunStep.cmdDone {s t : State} (h : RunStep s t) (hq : s.seq = .runLoop) (ht : t.seq = .idle) :
    t.cmdDone = true := by
  have hbusy : s.seq ≠ .idle := by simp [hq]
  cases h with
  | final | openOrbit => rfl
  | _ => exact absurd ht hbusy

/-- RUN leaves the operands, the flags, CMD, the configuration and the model's own fields. -/
theorem CommandStep.run_frame {s t : State} (h : CommandStep s .run t) : t = s.withRunState t := by
  cases h with
  | running hq h => exact h.frame
  | wrote x hi => exact hi.elim
  | _ => rfl

/-- Every command but RUN completes, and leaves all but the operands, the flags, the necklace state and the record. -/
theorem CommandStep.frame {s t : State} {i : Instr} (h : CommandStep s i t) (hi : i ≠ .run) :
    t = { s with
      v := t.v, flags := t.flags, nk := t.nk, errRec := t.errRec, seq := .idle, cmdDone := true } := by
  cases h with
  | initialised | running => exact absurd rfl hi
  | _ => rfl

/-- Only V[RD] changes. -/
theorem CommandStep.getV {s t : State} {i : Instr} (h : CommandStep s i t) {r : RegNum} (hr : r ≠ i.rd) :
    t.getV r = s.getV r := by
  cases h with
  | wrote x _ => exact s.getV_wrote_ne _ r x hr
  | classified d _ _ x => exact s.getV_wrote_ne d r x hr
  | yielded d k => exact s.getV_wrote_ne d r _ hr
  | running _ h => exact State.getV_congr h.v r
  | _ => rfl

/-- The commands without a destination leave the register file. -/
theorem CommandStep.v {s t : State} {i : Instr} (h : CommandStep s i t) (hi : i = .nop ∨ i = .nkinit ∨ i = .run) :
    t.v = s.v := by
  cases h with
  | wrote x hw => rcases hi with rfl | rfl | rfl <;> exact hw.elim
  | classified | yielded => simp at hi
  | running _ h => exact h.v
  | _ => rfl

/-- Only CLASS writes P, S and R. -/
theorem CommandStep.flags_psr {s t : State} {i : Instr} (h : CommandStep s i t) (hi : ∀ d a b, i ≠ .classify d a b) :
    t.flags.p = s.flags.p ∧ t.flags.s = s.flags.s ∧ t.flags.r = s.flags.r := by
  cases h with
  | classified d a b => exact absurd rfl (hi d a b)
  | running _ h =>
    rw [h.flags]
    exact ⟨rfl, rfl, rfl⟩
  | _ => exact ⟨rfl, rfl, rfl⟩

/-- Only NKINIT and NKNEXT write X. -/
theorem CommandStep.flags_x {s t : State} {i : Instr} (h : CommandStep s i t) (hinit : i ≠ .nkinit)
    (hnext : ∀ d, i ≠ .nknext d) : t.flags.x = s.flags.x := by
  cases h with
  | started => exact absurd rfl hinit
  | notActive d | yielded d | ended d => exact absurd rfl (hnext d)
  | running _ h => rw [h.flags]
  | _ => rfl

/-- Only NKINIT, NKNEXT and RUN write the necklace state. -/
theorem CommandStep.nk {s t : State} {i : Instr} (h : CommandStep s i t) (hinit : i ≠ .nkinit)
    (hnext : ∀ d, i ≠ .nknext d) (hrun : i ≠ .run) : t.nk = s.nk := by
  cases h with
  | started => exact absurd rfl hinit
  | notActive d | yielded d | ended d => exact absurd rfl (hnext d)
  | initialised | running => exact absurd rfl hrun
  | _ => rfl

/-- A command that leaves the core idle has completed. -/
theorem CommandStep.cmdDone {s t : State} {i : Instr} (h : CommandStep s i t) (ht : t.seq = .idle) :
    t.cmdDone = true := by
  cases h with
  | initialised => cases ht
  | running hq h => exact h.cmdDone hq ht
  | _ => rfl

/-- Settles O56: what each kind of command step leaves. -/
theorem commandsWriteOnlyTheirState : Obligations.CommandsWriteOnlyTheirState := by
  intro i s t hexec
  have h := commandStep_of_exec hexec
  refine ⟨fun r => h.getV, h.v, h.flags_psr, h.flags_x, h.nk, fun hrun => ?_, ?_⟩
  · rw [h.frame hrun]
    exact ⟨rfl, rfl, rfl, rfl, rfl, rfl, rfl, rfl⟩
  · have hdone := h.cmdDone
    by_cases hrun : i = .run
    · subst hrun
      rw [h.run_frame] at hdone ⊢
      exact ⟨rfl, rfl, rfl, rfl, rfl, rfl, rfl, rfl, rfl, rfl, rfl, rfl, hdone⟩
    · rw [h.frame hrun]
      exact ⟨rfl, rfl, rfl, rfl, rfl, rfl, rfl, rfl, rfl, rfl, rfl, rfl, fun _ => rfl⟩

end Sys2Proof.Machine

/-! The rules of the whole machine, from what a step can do: the lock while busy (O57), the FIFO's changes (O38), the safe
pattern of CEILING and the hold of RUN (O37, O36), the invariant (O58, O59) and the error records (O60). -/

namespace Sys2Proof.Machine

open Sys2Proof

/-! The lock while busy (10_state.md R46) -/

/-- No command writes CMD or the configuration. -/
theorem CommandStep.config {s t : State} {i : Instr} (h : CommandStep s i t) :
    t.degree = s.degree ∧ t.reduction = s.reduction ∧ t.groupOrder = s.groupOrder ∧ t.ceiling = s.ceiling ∧
    t.primOnly = s.primOnly ∧ t.cmd = s.cmd := by
  by_cases hrun : i = .run
  · subst hrun
    rw [h.run_frame]
    exact ⟨rfl, rfl, rfl, rfl, rfl, rfl⟩
  · rw [h.frame hrun]
    exact ⟨rfl, rfl, rfl, rfl, rfl, rfl⟩

/-- While busy no write but a reset changes CMD, the configuration or an operand. -/
theorem WriteEffect.locked {s t : State} (h : WriteEffect s t) (hq : s.seq ≠ .idle) :
    t.degree = s.degree ∧ t.reduction = s.reduction ∧ t.groupOrder = s.groupOrder ∧ t.ceiling = s.ceiling ∧
    t.primOnly = s.primOnly ∧ t.cmd = s.cmd ∧ t.v = s.v := by
  cases h with
  | accepted _ hidle | stored _ _ hidle => exact absurd hidle hq
  | cmdBusy | lockedBusy => simp
  | _ => exact ⟨rfl, rfl, rfl, rfl, rfl, rfl, rfl⟩

/-- Settles O57: the core's turn by its command, the host's by the lock. -/
theorem busyLocksConfiguration : Obligations.BusyLocksConfiguration := by
  intro s t ev evs hq hs hreset hstep
  rw [step_cons s hs] at hstep
  rcases eventStep_cases _ hstep with ⟨rfl, h⟩ | ⟨rfl, -⟩ | ⟨acc, -, -, rfl⟩ | ⟨acc, w, rfl, hp, rfl⟩
  · rcases coreStep_cases _ h with ⟨-, rfl⟩ | ⟨-, i, -, h⟩ | ⟨-, -, rfl⟩
    · exact ⟨rfl, rfl, rfl, rfl, rfl, rfl, fun hev => absurd rfl hev⟩
    · obtain ⟨h1, h2, h3, h4, h5, h6⟩ := (commandStep_of_exec h).config
      exact ⟨h1, h2, h3, h4, h5, h6, fun hev => absurd rfl hev⟩
    · exact ⟨rfl, rfl, rfl, rfl, rfl, rfl, fun hev => absurd rfl hev⟩
  · exact absurd trivial hreset
  · rw [State.readReg_eq]
    exact ⟨rfl, rfl, rfl, rfl, rfl, rfl, fun _ => rfl⟩
  · obtain ⟨-, haligned, -⟩ := acc.performed_iff.1 hp
    rcases writeEffect_of_writeReg (State.tick { s with schedule := evs }) w haligned with ⟨hr, hw, -⟩ | h
    · exact absurd ⟨hp, hr, hw⟩ hreset
    · obtain ⟨h1, h2, h3, h4, h5, h6, h7⟩ := h.locked hq
      exact ⟨h1, h2, h3, h4, h5, h6, fun _ => h7⟩

/-! The FIFO (10_state.md R41, R43) -/

/-- The four changes of the FIFO. -/
def FifoChange (s t : State) : Prop :=
  t.fifo = s.fifo ∨ (∃ r, t.fifo = s.fifo ++ [r] ∧ s.fifo.length < s.fifoDepth.toNat) ∨ t.fifo = s.fifo.tail ∨ t.fifo = []

theorem RunStep.fifo {s t : State} (h : RunStep s t) : FifoChange s t := by
  cases h with
  | push r _ _ _ hspace => exact .inr (.inl ⟨r, rfl, hspace⟩)
  | _ => exact .inl rfl

theorem CommandStep.fifo {s t : State} {i : Instr} (h : CommandStep s i t) : FifoChange s t := by
  cases h with
  | initialised => exact .inr (.inr (.inr rfl))
  | running _ h => exact h.fifo
  | _ => exact .inl rfl

theorem WriteEffect.fifo {s t : State} (h : WriteEffect s t) : FifoChange s t := by
  cases h with
  | popped => exact .inr (.inr (.inl rfl))
  | cmdBusy | lockedBusy => exact .inl (s.raiseError_fifo _ _ _)
  | stored w r =>
    obtain ⟨-, -, -, hfifo, -⟩ := s.store_frame w r
    exact .inl hfifo
  | _ => exact .inl rfl

theorem MachineStep.fifo {s t : State} (h : MachineStep s t) : FifoChange s t := by
  cases h with
  | command _ _ h => exact h.fifo
  | reset => exact .inr (.inr (.inr rfl))
  | write h => exact h.fifo
  | _ => exact .inl rfl

/-- Settles O38: the push of a result step, the host's pop, and RUN's initialisation and the resets. -/
theorem fifoChangesOnlyByPushPopOrClear : Obligations.FifoChangesOnlyByPushPopOrClear := by
  intro s t h
  obtain ⟨evs, moves, hstep⟩ := machineStep_of_step h
  exact hstep.fifo

/-! The safe pattern of 70_reset_and_hazards.md R254 -/

/-- The bound speaks of a RUN in progress only. -/
theorem State.CeilingSafe.of_not_runLoop {t : State} (h : t.seq ≠ .runLoop) : t.CeilingSafe :=
  fun hq => absurd hq h

/-- The bound is kept where the FIFO does not grow, the counters and CEILING stay and DONE is not cleared. -/
theorem State.CeilingSafe.of_le {s t : State} (h : s.CeilingSafe) (hseq : t.seq = s.seq) (hceil : t.ceiling = s.ceiling)
    (hdepth : t.fifoDepth = s.fifoDepth) (hcount : t.emitCount = s.emitCount) (hfifo : t.fifo.length ≤ s.fifo.length)
    (hdone : s.done = true → t.done = true) : t.CeilingSafe := by
  intro hq hne hle
  rw [hseq] at hq
  rw [hceil] at hne hle
  rw [hdepth] at hle
  obtain ⟨hlen, hend⟩ := h hq hne hle
  rw [hcount, hceil]
  exact ⟨hfifo.trans hlen, hend.imp_left hdone⟩

/-- A push counts the entry it adds, and sets DONE when the count reaches CEILING. -/
theorem State.CeilingSafe.push {s : State} (h : s.CeilingSafe) (r : Result) (rest : List Result) (hd : s.done = false) :
    State.CeilingSafe { (s.countResult r).pushResult r with pend := rest } := by
  intro hq hne hle
  obtain ⟨hlen, hend⟩ := h hq hne hle
  have hbelow : s.emitCount.toNat < s.ceiling.toNat := hend.resolve_left (by simp [hd])
  have hceil := s.ceiling.isLt
  have hcount : (s.emitCount + 1#64).toNat = s.emitCount.toNat + 1 := by
    rw [BitVec.toNat_add]
    exact Nat.mod_eq_of_lt (by simp; omega)
  have hceiling : s.ceiling ≠ 0#64 := hne
  simp only [State.pushResult_fifo, State.pushResult_emitCount, State.pushResult_done, State.pushResult_ceiling,
    State.countResult_fifo, State.countResult_emitCount, State.countResult_done, State.countResult_ceiling,
    List.length_append, List.length_singleton, hcount]
  refine ⟨by omega, ?_⟩
  by_cases hlast : s.emitCount + 1#64 = s.ceiling
  · simp [hlast, hceiling]
  · have hne' : (s.emitCount + 1#64).toNat ≠ s.ceiling.toNat := mt BitVec.eq_of_toNat_eq hlast
    exact .inr (by omega)

theorem RunStep.ceilingSafe {s t : State} (h : RunStep s t) (hs : s.CeilingSafe) : t.CeilingSafe := by
  cases h with
  | push r rest _ hd => exact hs.push r rest hd
  | final | openOrbit => exact .of_not_runLoop (by simp [State.failedWith])
  | _ => exact hs.of_le rfl rfl rfl rfl le_rfl id

theorem CommandStep.ceilingSafe {s t : State} {i : Instr} (h : CommandStep s i t) (hs : s.CeilingSafe) :
    t.CeilingSafe := by
  by_cases hrun : i = .run
  · subst hrun
    cases h with
    | wrote x hi => exact hi.elim
    | initialised =>
      exact fun _ hne _ => ⟨le_rfl, .inr (Nat.pos_of_ne_zero fun h0 => hne (BitVec.eq_of_toNat_eq h0))⟩
    | running _ h => exact h.ceilingSafe hs
    | badDegree | openOrbit => exact .of_not_runLoop Sequencer.noConfusion
  · rw [h.frame hrun]
    exact .of_not_runLoop Sequencer.noConfusion

theorem WriteEffect.ceilingSafe {s t : State} (h : WriteEffect s t) (hs : s.CeilingSafe) : t.CeilingSafe := by
  cases h with
  | accepted => exact .of_not_runLoop Sequencer.noConfusion
  | control => exact hs.of_le rfl rfl rfl rfl le_rfl fun hd => by simp [hd]
  | cmdBusy | lockedBusy => exact hs.of_le (by simp) (by simp) (by simp) (by simp) (by simp) (by simp)
  | popped => exact hs.of_le rfl rfl rfl rfl (by simp) id
  | stored w r hq =>
    obtain ⟨hseq, -⟩ := s.store_frame w r
    exact .of_not_runLoop (by simp [hseq, hq])
  | _ => exact hs.of_le rfl rfl rfl rfl le_rfl id

theorem MachineStep.ceilingSafe {s t : State} (hs : s.CeilingSafe) (h : MachineStep s t) : t.CeilingSafe := by
  cases h with
  | command _ _ h => exact h.ceilingSafe hs
  | illegal | reset => exact .of_not_runLoop Sequencer.noConfusion
  | write h => exact h.ceilingSafe hs
  | _ => exact hs.of_le rfl rfl rfl rfl le_rfl id

/-- Where RUN is held, the head of PEND would be pushed into a full FIFO (44_run.md R189). -/
theorem State.held_iff {s : State} :
    s.held = true ↔ ∃ r rest, s.pend = r :: rest ∧ s.done = false ∧ s.emits r = true ∧ s.fifoFull = true := by
  unfold State.held
  cases hp : s.pend with
  | nil => simp
  | cons r rest => simp [and_assoc]

theorem State.stall_iff {s : State} :
    s.stall = true ↔ s.seq = .runLoop ∧
      ∃ r rest, s.pend = r :: rest ∧ s.done = false ∧ s.emits r = true ∧ s.fifoFull = true := by
  rw [State.stall, Bool.and_eq_true, decide_eq_true_iff, State.held_iff]

/-- Settles O37: the bound is kept, and a full FIFO would mean as many pushes as CEILING. -/
theorem ceilingWithinDepthNeverHolds : Obligations.CeilingWithinDepthNeverHolds := by
  refine ⟨fun s t => step_keeps (fun _ _ _ _ _ h => h) (fun _ _ => MachineStep.ceilingSafe), fun s hs hne hle => ?_⟩
  rw [status_stall, Bool.eq_false_iff]
  intro hstall
  obtain ⟨hq, r, rest, -, hd, -, hfull⟩ := State.stall_iff.1 hstall
  obtain ⟨hlen, hend⟩ := hs hq hne hle
  have hbelow := hend.resolve_left (by simp [hd])
  have hdepth := State.fifoFull_iff.1 hfull
  omega

/-- Settles O36: the hold of a result step, and the bit of STATUS that says so. -/
theorem runHeldByFullFifo : Obligations.RunHeldByFullFifo := by
  refine fun s => ⟨fun r rest hq hp hd hmode hfull => ?_, fun hstall => ?_⟩
  · have he : s.emits r = true := State.emits_iff.2 hmode
    have hff : s.fifoFull = true := State.fifoFull_iff.2 hfull
    rw [exec_run_result hq hp, State.runResult_held rest hd he hff, status_stall]
    exact ⟨rfl, State.stall_iff.2 ⟨hq, r, rest, hp, hd, he, hff⟩⟩
  · rw [status_stall] at hstall
    obtain ⟨hq, r, rest, hp, hd, he, hfull⟩ := State.stall_iff.1 hstall
    exact ⟨hq, hd, State.fifoFull_iff.1 hfull, r, rest, hp, State.emits_iff.1 he⟩

/-! The machine's invariant -/

/-- The state the generator starts from is legal (40_necklace.md R105). -/
theorem nkStart_legal {n : BitVec 7} (h : 1 ≤ n.toNat ∧ n.toNat ≤ 64) : (nkStart n).Legal where
  idle_zero hst := by cases hst
  n_range _ := h
  p_range _ := ⟨le_rfl, h.1⟩
  high_zero := (high_zero_iff _ _).2 fun _ _ => by simp [nkStart, digit]

/-- The search leaves a started generator's state legal, with its degree. -/
theorem nkSeek_legal {k k' : Necklace} {found : Bool} (h : k.Legal) (hst : k.st ≠ .idle)
    (hk : nkSeek k = (k', found)) : k'.Legal ∧ k'.st ≠ .idle ∧ k'.n = k.n := by
  obtain ⟨hn, habove, hfound, hend⟩ := nkSeek_frame hk
  obtain ⟨hp1, hp2⟩ := h.p_range hst
  have hperiod := nkSeekFrom_period (2 ^ 64) k hp1 hp2
  change 1 ≤ (nkSeek k).1.p.toNat ∧ (nkSeek k).1.p.toNat ≤ k.n.toNat at hperiod
  rw [hk] at hperiod
  have hst' : k'.st ≠ .idle := by
    cases found with
    | true =>
      obtain ⟨hsame, -⟩ := hfound rfl
      rwa [hsame]
    | false =>
      rw [hend rfl]
      exact NkStatus.noConfusion
  refine ⟨⟨fun hidle => absurd hidle hst', fun _ => by rw [hn]; exact h.n_range hst, fun _ => by rw [hn]; exact hperiod,
    (high_zero_iff _ _).2 fun j hj => ?_⟩, hst', hn⟩
  rw [hn] at hj
  exact (habove j hj).trans ((high_zero_iff _ _).1 h.high_zero j hj)

/-- The reset state meets the invariant, whatever FIFO_DEPTH is. -/
theorem State.toReset_inv {s : State} (h : s.fifoDepth ≠ 0#16) : s.toReset.Inv where
  depth_pos := h
  fifo_le := Nat.zero_le _
  pend_le := Nat.zero_le _
  pend_run _ := rfl
  run_word hq := by cases hq
  run_degree hq := by cases hq
  aborted_done ha := by cases ha
  nk_legal := ⟨fun _ => rfl, fun hst => absurd rfl hst, fun hst => absurd rfl hst, rfl⟩

/-- Settles O58: the reset state is what a reset of it leaves. -/
theorem invariantAfterReset : Obligations.InvariantAfterReset :=
  State.toReset_inv (s := State.reset) config_fifoDepth_ne_zero

/-- The model's own fields have no part in the invariant. -/
theorem State.Inv.withOwn {s : State} (h : s.Inv) (evs : List Event) (x : Word) (m k : Nat) :
    (s.withOwn evs x m k).Inv where
  depth_pos := h.depth_pos
  fifo_le := h.fifo_le
  pend_le := h.pend_le
  pend_run := h.pend_run
  run_word := h.run_word
  run_degree := h.run_degree
  aborted_done := h.aborted_done
  nk_legal := h.nk_legal

/-- The end of a command with PEND empty and a legal necklace state. -/
theorem State.Inv.completed {s : State} (h : s.Inv) (hp : s.pend = []) {k : Necklace} (hk : k.Legal)
    (v : Vector Operand 8) (f : Flags) (e : Option ErrRecord) :
    State.Inv { s with v := v, flags := f, nk := k, errRec := e, seq := .idle, cmdDone := true } where
  depth_pos := h.depth_pos
  fifo_le := h.fifo_le
  pend_le := h.pend_le
  pend_run _ := hp
  run_word hq := by cases hq
  run_degree hq := by cases hq
  aborted_done := h.aborted_done
  nk_legal := hk

theorem RunStep.inv {s t : State} (h : RunStep s t) (hq : s.seq = .runLoop) (hs : s.Inv) : t.Inv := by
  obtain ⟨hdeg, hn, hst⟩ := hs.run_degree hq
  cases h with
  | discard => exact { hs with pend_le := Nat.zero_le _, pend_run := fun _ => rfl }
  | held => exact hs
  | push r rest hp hd hspace =>
    have hpend := hs.pend_le
    rw [hp, List.length_cons] at hpend
    exact {
      depth_pos := hs.depth_pos
      fifo_le := by simpa using hspace
      pend_le := by simp only; omega
      pend_run := fun hne => absurd hq hne
      run_word := hs.run_word
      run_degree := hs.run_degree
      aborted_done := fun ha => by simp [hs.aborted_done ha]
      nk_legal := hs.nk_legal }
  | count r rest hp =>
    have hpend := hs.pend_le
    rw [hp, List.length_cons] at hpend
    exact { hs with pend_le := by simp only; omega, pend_run := fun hne => absurd hq hne }
  | final hp => exact hs.completed hp hs.nk_legal s.v s.flags s.errRec
  | exhausted k hp hk =>
    obtain ⟨hlegal, hst', hn'⟩ := nkSeek_legal hs.nk_legal hst hk
    exact { hs with run_degree := fun _ => ⟨hdeg, hn'.trans hn, hst'⟩, nk_legal := hlegal }
  | candidate k l hl hk =>
    obtain ⟨hlegal, hst', hn'⟩ := nkSeek_legal hs.nk_legal hst hk
    exact { hs with
      pend_le := hl
      pend_run := fun hne => absurd hq hne
      run_degree := fun _ => ⟨hdeg, hn'.trans hn, hst'⟩
      nk_legal := hlegal }
  | openOrbit k hp hk =>
    obtain ⟨hlegal, -⟩ := nkSeek_legal hs.nk_legal hst hk
    exact hs.completed hp hlegal s.v s.flags _

theorem CommandStep.inv {s t : State} {i : Instr} (h : CommandStep s i t) (hd : decode s.cmd = .ok i) (hs : s.Inv) :
    t.Inv := by
  have hpend : i ≠ .run → s.pend = [] := fun hi => hs.pend_run fun hq => by
    rw [hs.run_word hq] at hd
    cases hd
    exact hi rfl
  cases h with
  | wrote x hi => exact hs.completed (hpend (by rintro rfl; exact hi)) hs.nk_legal _ s.flags s.errRec
  | badDegree _ _ hq =>
    refine hs.completed ?_ hs.nk_legal s.v s.flags _
    by_cases hi : i = .run
    · exact hs.pend_run (hq hi)
    · exact hpend hi
  | openOrbit data hi =>
    refine hs.completed (hpend ?_) hs.nk_legal s.v s.flags _
    rintro rfl
    simp at hi
  | nop => exact hs.completed (hpend (by simp)) hs.nk_legal s.v s.flags s.errRec
  | classified => exact hs.completed (hpend (by simp)) hs.nk_legal _ _ s.errRec
  | started hlegal => exact hs.completed (hpend (by simp)) (nkStart_legal hlegal) s.v _ s.errRec
  | notActive => exact hs.completed (hpend (by simp)) hs.nk_legal s.v _ s.errRec
  | yielded d k hst hk =>
    obtain ⟨hlegal, -⟩ := nkSeek_legal hs.nk_legal (by simp [hst]) hk
    exact hs.completed (hpend (by simp)) hlegal _ _ s.errRec
  | ended d k hst hk =>
    obtain ⟨hlegal, -⟩ := nkSeek_legal hs.nk_legal (by simp [hst]) hk
    exact hs.completed (hpend (by simp)) hlegal s.v _ s.errRec
  | initialised hlegal =>
    exact {
      depth_pos := hs.depth_pos
      fifo_le := Nat.zero_le _
      pend_le := Nat.zero_le _
      pend_run := fun _ => rfl
      run_word := fun _ => (encode_of_decode hd).symm
      run_degree := fun _ => ⟨s.degreeOk_iff.2 hlegal, rfl, NkStatus.noConfusion⟩
      aborted_done := fun ha => by cases ha
      nk_legal := nkStart_legal hlegal }
  | running hq h => exact h.inv hq hs

theorem WriteEffect.inv {s t : State} (h : WriteEffect s t) (hs : s.Inv) : t.Inv := by
  cases h with
  | control abort clear =>
    refine { hs with aborted_done := fun ha => ?_ }
    have hdone := hs.aborted_done
    revert ha hdone
    cases s.aborted <;> cases s.done <;> simp
  | accepted w hq =>
    exact { hs with
      pend_run := fun _ => hs.pend_run (by simp [hq])
      run_word := fun h => by cases h
      run_degree := fun h => by cases h }
  | cmdBusy | lockedBusy => rw [State.raiseError_eq]; exact { hs with }
  | popped =>
    have hle := hs.fifo_le
    exact { hs with fifo_le := by simp; omega }
  | stored w r hq =>
    obtain ⟨hseq, -, -, hfifo, hdepth, hpend, hdone, habort, hnk, -⟩ := s.store_frame w r
    have hidle : (s.store w r).seq ≠ .runLoop := by simp [hseq, hq]
    exact {
      depth_pos := by rw [hdepth]; exact hs.depth_pos
      fifo_le := by rw [hfifo, hdepth]; exact hs.fifo_le
      pend_le := by rw [hpend]; exact hs.pend_le
      pend_run := fun _ => by rw [hpend]; exact hs.pend_run (by simp [hq])
      run_word := fun hrun => absurd hrun hidle
      run_degree := fun hrun => absurd hrun hidle
      aborted_done := by rw [habort, hdone]; exact hs.aborted_done
      nk_legal := by rw [hnk]; exact hs.nk_legal }
  | ignored => exact hs
  | irqStatus | irqEn => exact { hs with }

theorem MachineStep.inv {s t : State} (hs : s.Inv) (h : MachineStep s t) : t.Inv := by
  cases h with
  | idle => exact hs
  | command _ hd h => exact h.inv hd hs
  | illegal _ hd =>
    refine hs.completed (hs.pend_run fun hq => ?_) hs.nk_legal s.v s.flags _
    rw [hs.run_word hq] at hd
    cases hd
  | reset => exact State.toReset_inv hs.depth_pos
  | read => exact { hs with }
  | write h => exact h.inv hs

/-- Settles O59: command by command and write by write. -/
theorem stepKeepsTheInvariant : Obligations.StepKeepsTheInvariant := fun _ _ =>
  step_keeps (fun _ evs x m k h => h.withOwn evs x m k) fun _ _ => MachineStep.inv

/-! The error records (60_exceptions.md R210) -/

/-- The state's record, if it has one, says what its cause's row says. -/
def State.RecordLegal (s : State) : Prop := ∀ r, s.errRec = some r → r.Legal

/-- The record that is kept and the new one are legal, so the one that stands is. -/
theorem State.RecordLegal.recorded {s t : State} {q : ErrRecord} (hs : s.RecordLegal) (ht : t.errRec = s.recorded q)
    (hq : q.Legal) : t.RecordLegal := by
  intro r hr
  rw [ht] at hr
  rcases s.recorded_cases q with ⟨-, h⟩ | ⟨p, hp, h⟩ <;> rw [h] at hr <;> cases hr
  · exact hq
  · exact hs _ hp

/-- The degree an INVALID_DEGREE records is none of 1..64. -/
theorem invalidDegree_legal {s : State} {i : Instr} (hd : decode s.cmd = .ok i) (hn : i.readsDegree = true)
    (hlegal : ¬ s.DegreeLegal) : (⟨.invalidDegree, s.cmd, s.degree.setWidth 64⟩ : ErrRecord).Legal := by
  refine ⟨⟨i, hd, hn⟩, ?_⟩
  have hlt := s.degree.isLt
  have hdata : (s.degree.setWidth 64).toNat = s.degree.toNat := by
    rw [BitVec.toNat_setWidth]
    omega
  by_cases h0 : s.degree.toNat = 0
  · exact .inl (BitVec.eq_of_toNat_eq (hdata.trans h0))
  · right
    rw [hdata]
    unfold State.DegreeLegal at hlegal
    omega

theorem RunStep.recordLegal {s t : State} (h : RunStep s t) (hd : decode s.cmd = .ok .run) (hs : s.RecordLegal) :
    t.RecordLegal := by
  cases h with
  | openOrbit => exact hs.recorded rfl ⟨0#4, 0#4, .inr (.inr hd)⟩
  | _ => exact hs

theorem CommandStep.recordLegal {s t : State} {i : Instr} (h : CommandStep s i t) (hd : decode s.cmd = .ok i)
    (hs : s.RecordLegal) : t.RecordLegal := by
  cases h with
  | badDegree hn hlegal => exact hs.recorded rfl (invalidDegree_legal hd hn hlegal)
  | openOrbit data hi =>
    obtain ⟨d, a, hi⟩ := hi
    refine hs.recorded rfl ⟨d, a, ?_⟩
    rcases hi with rfl | rfl
    · exact .inl hd
    · exact .inr (.inl hd)
  | running _ h => exact h.recordLegal hd hs
  | _ => exact hs

theorem WriteEffect.recordLegal {s t : State} (h : WriteEffect s t) (hs : s.RecordLegal) : t.RecordLegal := by
  cases h with
  | control abort clear =>
    cases clear with
    | true => exact fun r h => by cases h
    | false => exact hs
  | cmdBusy w => exact hs.recorded (s.raiseError_errRec _ _ _) rfl
  | lockedBusy off w hoff => exact hs.recorded (s.raiseError_errRec _ _ _) ⟨off, rfl, hoff⟩
  | stored w r =>
    obtain ⟨-, -, herr, -⟩ := s.store_frame w r
    exact fun r h => hs r (herr ▸ h)
  | _ => exact hs

theorem MachineStep.recordLegal {s t : State} (hs : s.RecordLegal) (h : MachineStep s t) : t.RecordLegal := by
  cases h with
  | command _ hd h => exact h.recordLegal hd hs
  | illegal _ hd => exact hs.recorded rfl ⟨⟨_, hd⟩, rfl⟩
  | reset => exact fun r h => by cases h
  | write h => exact h.recordLegal hs
  | _ => exact hs

/-- Settles O60: each place that raises an error gives a record of its row. -/
theorem stepKeepsErrorRecordsLegal : Obligations.StepKeepsErrorRecordsLegal := fun _ _ =>
  step_keeps (P := State.RecordLegal) (fun _ _ _ _ _ h => h) fun _ _ => MachineStep.recordLegal

end Sys2Proof.Machine

/-! The register window: the words of STATUS, FLAGS, the necklace state and the error record (O46, O47, O51, O39), resets
(O43), the offsets that ignore writes (O50), reads (O52, O53) and writes (O54, O55). -/

namespace Sys2Proof.Machine

open Sys2Proof

/-! STATUS and irq (10_state.md R24, 60_exceptions.md R221) -/

/-- The low byte of STATUS bit by bit. -/
theorem status_low_bits (s : State) :
    (s.view .status).getLsbD 0 = s.busy ∧ (s.view .status).getLsbD 1 = s.done ∧
    (s.view .status).getLsbD 2 = s.aborted ∧ (s.view .status).getLsbD 3 = s.errRec.isSome ∧
    (s.view .status).getLsbD 4 = s.fifoNe ∧ (s.view .status).getLsbD 5 = s.fifoFull := by
  refine ⟨?_, ?_, ?_, ?_, ?_, ?_⟩ <;>
  · simp only [State.view, State.statusWord]
    iterate 8 rw [BitVec.getLsbD_append]
    simp

/-- From bit 8 on STATUS holds a byte of 0, FIFO_COUNT and 0. -/
theorem status_high_bits (s : State) (i : Nat) :
    (s.view .status).getLsbD (8 + i) = (0#32 ++ s.fifoCount ++ 0#8).getLsbD i := by
  simp only [State.view, State.statusWord]
  iterate 8 rw [BitVec.getLsbD_append, if_neg (by omega)]
  congr 1
  omega

/-- A field of STATUS from bit 8 on. -/
theorem status_high_field (s : State) (i n : Nat) :
    (s.view .status).extractLsb' (8 + i) n = (0#32 ++ s.fifoCount ++ 0#8).extractLsb' i n := by
  apply BitVec.eq_of_getLsbD_eq
  intro j hj
  simp only [BitVec.getLsbD_extractLsb', hj, decide_true, Bool.true_and, Nat.add_assoc, status_high_bits]

/-- A field of a word by its number. -/
theorem extractLsb'_eq_of_toNat {m n i : Nat} {w : BitVec m} {x : BitVec n} (h : w.toNat / 2 ^ i % 2 ^ n = x.toNat) :
    w.extractLsb' i n = x := by
  apply BitVec.eq_of_toNat_eq
  rw [BitVec.extractLsb'_toNat, Nat.shiftRight_eq_div_pow, h]

/-- A count between zeros, taken apart. -/
theorem count_fields (c : BitVec 16) :
    (0#32 ++ c ++ 0#8).extractLsb' 0 8 = 0#8 ∧ (0#32 ++ c ++ 0#8).extractLsb' 8 16 = c ∧
    (0#32 ++ c ++ 0#8).extractLsb' 24 32 = 0#32 := by
  have hc := c.isLt
  have hnum : (0#32 ++ c ++ 0#8).toNat = c.toNat * 2 ^ 8 := by
    rw [toNat_join, toNat_join]
    simp only [BitVec.toNat_ofNat]
    omega
  refine ⟨?_, ?_, ?_⟩ <;> apply extractLsb'_eq_of_toNat <;> rw [hnum] <;> bv_omega

theorem isRunWord_iff_eq (w : Word) : isRunWord w = true ↔ w = 0x18#64 := by
  rw [isRunWord_iff]
  exact ⟨fun h => (encode_of_decode h).symm, fun h => h ▸ decode_encode (i := .run) rfl⟩

theorem State.running_iff (s : State) :
    s.running = true ↔ s.seq = .runLoop ∨ s.seq = .accepted ∧ s.cmd = 0x18#64 := by
  unfold State.running
  cases s.seq <;> simp [isRunWord_iff_eq]

theorem State.fifoNe_eq (s : State) : s.fifoNe = decide (s.fifo ≠ []) := by
  unfold State.fifoNe
  cases s.fifo <;> rfl

/-- Settles O46: the low byte bit by bit, and the three fields above it. -/
theorem statusBits : Obligations.StatusBits := by
  rintro s w rfl
  obtain ⟨hbusy, hdone, haborted, herr, hne, hfull⟩ := status_low_bits s
  obtain ⟨hzero, hcount, hhigh⟩ := count_fields s.fifoCount
  refine ⟨hbusy, hdone, haborted, herr, hne.trans s.fifoNe_eq, hfull, ?_, ?_, ?_, ?_⟩
  · rw [status_running]
    exact s.running_iff
  · exact (status_high_field s 0 8).trans hzero
  · exact (status_high_field s 8 16).trans hcount
  · exact (status_high_field s 24 32).trans hhigh

/-- Settles O47: the conditions are bits of STATUS, the enables those of IRQ_EN. -/
theorem irqIsTheEnabledConditions : Obligations.IrqIsTheEnabledConditions := by
  intro s
  obtain ⟨-, -, -, herr, hne, -⟩ := status_low_bits s
  have henable : ∀ i, i < 3 → (s.view .irqEn).getLsbD i = s.irqEn.getLsbD i := fun i hi => by
    rw [State.view, BitVec.getLsbD_append, if_pos hi]
  rw [herr, hne, henable 0 (by omega), henable 1 (by omega), henable 2 (by omega), State.irq]
  simp only [Bool.or_eq_true, Bool.and_eq_true, or_assoc]

/-! FLAGS and the necklace words (10_state.md R29, R40) -/

theorem view_flags_fields (s : State) :
    (s.view .flags).getLsbD 0 = s.flags.p ∧ (s.view .flags).getLsbD 1 = s.flags.s ∧
    (s.view .flags).getLsbD 2 = s.flags.r ∧ (s.view .flags).getLsbD 3 = s.flags.x ∧
    (s.view .flags).extractLsb' 4 60 = 0#60 := by
  rw [State.view, Flags.word]
  cases s.flags with
  | mk p q r x => cases p <;> cases q <;> cases r <;> cases x <;> decide

theorem ctlWord_toNat (k : Necklace) :
    k.ctlWord.toNat = k.p.toNat + k.n.toNat * 2 ^ 8 + k.st.bits.toNat * 2 ^ 16 := by
  rw [Necklace.ctlWord]
  iterate 5 rw [toNat_join]
  simp only [BitVec.toNat_ofNat]
  omega

theorem ctlWord_fields (k : Necklace) :
    k.ctlWord.extractLsb' 0 7 = k.p ∧ k.ctlWord.extractLsb' 7 1 = 0#1 ∧ k.ctlWord.extractLsb' 8 7 = k.n ∧
    k.ctlWord.extractLsb' 15 1 = 0#1 ∧ k.ctlWord.extractLsb' 18 46 = 0#46 ∧ k.ctlWord.extractLsb' 16 2 = k.st.bits := by
  have hp := k.p.isLt
  have hn := k.n.isLt
  have hst := k.st.bits.isLt
  refine ⟨?_, ?_, ?_, ?_, ?_, ?_⟩ <;> apply extractLsb'_eq_of_toNat <;> rw [ctlWord_toNat] <;> bv_omega

/-- A field of one bit that is 0 is a bit that is 0. -/
theorem getLsbD_eq_false_of_field {w : Word} {i : Nat} (h : w.extractLsb' i 1 = 0#1) : w.getLsbD i = false := by
  have hbit := congrArg (BitVec.getLsbD · 0) h
  simpa using hbit

/-- Settles O51: FLAGS by its sixteen values, NK_CTL field by field as numbers. -/
theorem flagsAndNecklaceWords : Obligations.FlagsAndNecklaceWords := by
  refine fun s => ⟨?_, rfl, ?_⟩
  · rintro w rfl
    exact view_flags_fields s
  · rintro w rfl
    obtain ⟨hp, h7, hn, h15, hhigh, hst⟩ := ctlWord_fields s.nk
    refine ⟨hp, getLsbD_eq_false_of_field h7, hn, getLsbD_eq_false_of_field h15, hhigh, hst.trans ?_⟩
    cases s.nk.st <;> rfl

/-! The error record (60_exceptions.md R210, R214) -/

/-- Settles O39: with and without a record, and the words that show it. -/
theorem firstErrorIsKept : Obligations.FirstErrorIsKept := by
  refine fun s c info data => ⟨fun hnone => ?_, fun hsome => ?_, ?_, fun hrec => ?_⟩
  · simp only [State.view, State.errCauseWord, State.errInfoWord, State.errDataWord, State.raiseError, hnone, and_self]
  · obtain ⟨r, hr⟩ := Option.ne_none_iff_exists'.1 hsome
    simp only [State.raiseError, hr]
  · obtain ⟨-, -, -, herr, -⟩ := status_low_bits (s.raiseError c info data)
    rw [herr, State.raiseError_errRec, State.recorded_isSome]
  · simp only [State.view, State.errCauseWord, State.errInfoWord, State.errDataWord, hrec, true_and]
    cases c <;> rfl

/-! Resets (70_reset_and_hazards.md R241, R242) -/

/-- Settles O43: SRST wins over the other bits of CTRL; the reset input is an event of its own. -/
theorem resetLeavesTheResetState : Obligations.ResetLeavesTheResetState := by
  rintro s w t rfl
  refine ⟨fun hsrst => ?_, rfl⟩
  rw [step_hostWrites_ctrl, State.writeCtrl, hsrst]
  rfl

/-! Reserved offsets and read-only registers (20_memory.md R65, 60_exceptions.md R218) -/

/-- The registers that ignore every write. -/
def WinReg.readOnly : WinReg → Bool
  | .id | .status | .errCause | .errInfo | .errData | .flags | .irrCount | .primCount | .emitCount | .nkA | .nkCtl => true
  | .resPolyLo | .resInfo | .resOrbit | .reserved => true
  | .ctrl | .cmd | .irqEn | .irqStatus | .degree | .redLo | .redHi | .groupOrder | .ceiling | .mode => false
  | .resPop | .vLo _ | .vHi _ => false

theorem State.writeReg_readOnly (s : State) (off : WinOffset) {r : WinReg} (w : Word) (h : r.readOnly = true) :
    s.writeReg off r w = s := by
  cases r with
  | ctrl | cmd | irqEn | irqStatus | degree | redLo | redHi | groupOrder | ceiling | mode | resPop | vLo | vHi => cases h
  | _ => rfl

/-- The read-only registers stand at the read-only offsets. -/
theorem winRegAt_readOnly (off : WinOffset) (h : ReadOnlyOffset off) : (winRegAt off).readOnly = true := by
  have hmap : ∀ o : WinOffset, ReadOnlyOffset o → (winRegAt o).readOnly = true := by decide +kernel
  exact hmap off h

/-- Settles O50: reserved offsets hold no register; the others ignore the write. -/
theorem reservedAndReadOnlyIgnoreWrites : Obligations.ReservedAndReadOnlyIgnoreWrites := by
  refine fun s off w => ⟨fun hoff => ?_, fun hoff => ?_⟩
  · have hr := winRegAt_reserved off hoff
    have haligned : off.toNat % 8 = 0 := hoff.1
    rw [step_hostReads_view s haligned (by rw [hr]; rfl) (by rw [hr]; rfl), hr]
    rfl
  · have haligned : off.toNat % 8 = 0 := by
      rcases hoff with h | h
      · exact h.1
      · exact h.1
    have hignored : (winRegAt off).readOnly = true := by
      rcases hoff with h | h
      · rw [winRegAt_reserved off h]; rfl
      · exact winRegAt_readOnly off h
    rw [step_hostWrites_writeReg s w haligned, State.writeReg_readOnly s.tick off w hignored]

/-- Settles O55: bit 0 of the data decides. -/
theorem irqStatusIsWriteOneToClear : Obligations.IrqStatusIsWriteOneToClear := by
  intro s w
  have hclear : s.tick.writeReg 0x048 .irqStatus w = { s.tick with cmdDone := s.cmdDone && !w.getLsbD 0 } := by
    rw [State.writeReg]
    cases w.getLsbD 0 <;> simp [State.tick]
  exact (step_hostWrites_writeReg s w (by decide)).trans (congrArg _ hclear)

end Sys2Proof.Machine

/-! Reads (O52, O53) and writes (O54) of the window. -/

namespace Sys2Proof.Machine

open Sys2Proof

/-! The operand registers by number -/

/-- The register a number 0..7 names. -/
theorem State.getV_of_lt (s : State) {r : RegNum} (h : r.toNat < 8) : s.getV r = s.v[r.toNat] := by
  rw [State.getV_eq, Vector.getElem?_eq_getElem h]
  rfl

theorem toNat_setWidth_regNum (k : BitVec 3) : (k.setWidth 4).toNat = k.toNat := by
  have hk := k.isLt
  rw [BitVec.toNat_setWidth]
  omega

/-- The register a window number names. -/
theorem State.getV_window (s : State) (k : Fin 8) : s.getV ((BitVec.ofNat 3 k.val).setWidth 4) = s.v[k] := by
  have hk : ((BitVec.ofNat 3 k.val).setWidth 4).toNat = k.val := by
    rw [toNat_setWidth_regNum, BitVec.toNat_ofNat, Nat.mod_eq_of_lt k.isLt]
  rw [s.getV_of_lt (by omega)]
  simp only [hk]
  rfl

/-- The register the commands read as number k. -/
theorem State.getV_ofNat (s : State) (k : Fin 8) : s.getV (BitVec.ofNat 4 k.val) = s.v[k] := by
  have hk : (BitVec.ofNat 4 k.val).toNat = k.val := by
    rw [BitVec.toNat_ofNat]
    omega
  rw [s.getV_of_lt (by omega)]
  simp only [hk]
  rfl

/-- The operand words stand at 0x100 + 0x10·k and 0x108 + 0x10·k (20_memory.md R61). -/
theorem winRegAt_vLo (k : Fin 8) :
    (BitVec.ofNat 9 (0x100 + 0x10 * k.val)).toNat % 8 = 0 ∧
    winRegAt (BitVec.ofNat 9 (0x100 + 0x10 * k.val)) = .vLo (BitVec.ofNat 3 k.val) := by
  revert k; decide

theorem winRegAt_vHi (k : Fin 8) :
    (BitVec.ofNat 9 (0x108 + 0x10 * k.val)).toNat % 8 = 0 ∧
    winRegAt (BitVec.ofNat 9 (0x108 + 0x10 * k.val)) = .vHi (BitVec.ofNat 3 k.val) := by
  revert k; decide

/-! What a read returns (20_memory.md R66) -/

/-- Only NK_A and NK_CTL are drawn anew, and only while RUNNING = 1. -/
theorem State.drawsOn_eq_false {s : State} {r : WinReg} (h : s.running = false ∨ (r ≠ .nkA ∧ r ≠ .nkCtl)) :
    s.drawsOn r = false := by
  cases r with
  | nkA | nkCtl => simpa [State.drawsOn] using h
  | _ => rfl

/-- The register holds a word of an operand. -/
def WinReg.isOperand : WinReg → Bool
  | .vLo _ | .vHi _ => true
  | _ => false

/-- Only an operand word can be that of after the next core step, and only while busy. -/
theorem State.seesNew_eq_false {s : State} {r : WinReg} (h : s.busy = false ∨ r.isOperand = false) :
    s.seesNew r = false := by
  cases r with
  | vLo | vHi => simp [State.seesNew, h.resolve_right (by simp [WinReg.isOperand])]
  | _ => rfl

/-- A read at a multiple of 8. -/
theorem step_hostReads_readReg (s : State) {off : WinOffset} (h : off.toNat % 8 = 0) :
    step (s.hostReads off) = .next (s.readReg (winRegAt off)) := by
  rw [step_hostReads, hostStep_read s off h]

/-- A read changes only the value the host has got and the count of draws. -/
theorem step_hostReads_frame (s : State) {off : WinOffset} (h : off.toNat % 8 = 0) :
    step (s.hostReads off) =
      .next { s with rdata := (s.readReg (winRegAt off)).rdata, draws := (s.readReg (winRegAt off)).draws } :=
  (step_hostReads_readReg s h).trans (congrArg _ (s.readReg_eq _))

/-- A read that draws nothing returns the register's value and changes nothing else. -/
theorem step_hostReads_value (s : State) {off : WinOffset} (h : off.toNat % 8 = 0)
    (hd : s.drawsOn (winRegAt off) = false) :
    step (s.hostReads off) = .next { s with rdata := s.readValue (winRegAt off) } := by
  rw [step_hostReads_readReg s h, State.readReg, hd]
  rfl

/-- A read that is no free choice, with the word it returns. -/
theorem step_hostReads_eq {s : State} {off : WinOffset} {x : Word} (h : off.toNat % 8 = 0)
    (hd : s.drawsOn (winRegAt off) = false) (hn : s.seesNew (winRegAt off) = false) (hx : s.view (winRegAt off) = x) :
    step (s.hostReads off) = .next { s with rdata := x } :=
  hx ▸ step_hostReads_view s h hd hn

/-- NK_A stands at 0x098 and NK_CTL at 0x0A0, and nowhere else. -/
theorem winRegAt_nk_iff (off : WinOffset) (h : off.toNat % 8 = 0) :
    (winRegAt off = .nkA ↔ off = 0x098) ∧ (winRegAt off = .nkCtl ↔ off = 0x0A0) := by
  have hmap : ∀ o : WinOffset, o.toNat % 8 = 0 →
      (winRegAt o = .nkA ↔ o = 0x098) ∧ (winRegAt o = .nkCtl ↔ o = 0x0A0) := by decide +kernel
  exact hmap off h

/-- Below 0x100 there is no operand word. -/
theorem winRegAt_low_not_operand (off : WinOffset) (h : off.toNat < 0x100) : (winRegAt off).isOperand = false := by
  have hmap : ∀ o : WinOffset, o.toNat < 0x100 → (winRegAt o).isOperand = false := by decide +kernel
  exact hmap off h

/-- The reads that are no free choice (20_memory.md R69, 44_run.md R194). -/
theorem no_free_choice {s : State} {off : WinOffset} (haligned : off.toNat % 8 = 0)
    (h : s.seq = .idle ∨ (off.toNat < 0x100 ∧ off ≠ 0x098 ∧ off ≠ 0x0A0) ∨
      ((off = 0x098 ∨ off = 0x0A0) ∧ s.running = false)) :
    s.drawsOn (winRegAt off) = false ∧ s.seesNew (winRegAt off) = false := by
  obtain ⟨hnkA, hnkCtl⟩ := winRegAt_nk_iff off haligned
  rcases h with hidle | ⟨hlow, hA, hCtl⟩ | ⟨hoff, hrun⟩
  · have hbusy : s.busy = false := decide_eq_false (not_not_intro hidle)
    have hrun : s.running = false := by rw [State.running, hidle]
    exact ⟨State.drawsOn_eq_false (.inl hrun), State.seesNew_eq_false (.inl hbusy)⟩
  · exact ⟨State.drawsOn_eq_false (.inr ⟨mt hnkA.1 hA, mt hnkCtl.1 hCtl⟩),
      State.seesNew_eq_false (.inr (winRegAt_low_not_operand off hlow))⟩
  · have hlow : off.toNat < 0x100 := by rcases hoff with rfl | rfl <;> decide
    exact ⟨State.drawsOn_eq_false (.inl hrun), State.seesNew_eq_false (.inr (winRegAt_low_not_operand off hlow))⟩

/-- A register with reserved bits above its field shows the field zero-extended. -/
theorem zero_join_eq_setWidth (m : Nat) {n : Nat} (x : BitVec n) : 0#m ++ x = x.setWidth (m + n) := by
  apply BitVec.eq_of_toNat_eq
  have hlt : x.toNat < 2 ^ (m + n) := x.isLt.trans_le (Nat.pow_le_pow_right two_pos (Nat.le_add_left n m))
  rw [toNat_join, BitVec.toNat_setWidth, Nat.mod_eq_of_lt hlt]
  simp

/-- A register of one bit. -/
theorem zero_join_ofBool (b : Bool) : 0#63 ++ BitVec.ofBool b = if b then 1#64 else 0#64 := by
  cases b <;> rfl

theorem loWord_eq_setWidth (x : Operand) : loWord x = x.setWidth 64 := (BitVec.setWidth_eq_extractLsb' (by omega)).symm

/-- The two words of the operand register k. -/
theorem State.view_vLo (s : State) (k : Fin 8) : s.view (.vLo (BitVec.ofNat 3 k.val)) = s.v[k].setWidth 64 := by
  rw [State.view, s.getV_window, loWord_eq_setWidth]

theorem State.view_vHi (s : State) (k : Fin 8) :
    s.view (.vHi (BitVec.ofNat 3 k.val)) = (s.v[k].extractLsb' 64 1).setWidth 64 := by
  rw [State.view, s.getV_window, hiWord]

/-- Every register of the map reads as `State.shown` says (20_memory.md R61). -/
theorem step_hostReads_shown (s : State) :
    ∀ p ∈ s.shown, step (s.hostReads p.1) = .next { s with rdata := p.2 } := by
  simp only [State.shown, List.forall_mem_append, List.forall_mem_cons, List.not_mem_nil, false_imp_iff, implies_true,
    and_true]
  refine ⟨⟨⟨?id, ?ctrl, ?status, ?errCause, ?errInfo, ?errData, ?cmd, ?flags, ?irqEn, ?irqStatus⟩,
    ⟨?degree, ?redLo, ?redHi, ?groupOrder, ?ceiling, ?mode⟩⟩,
    ⟨?irrCount, ?primCount, ?emitCount, ?resPolyLo, ?resInfo, ?resOrbit, ?resPop⟩⟩
  case id => exact step_hostReads_eq (by decide) rfl rfl s.view_id
  case irqEn => exact step_hostReads_eq (by decide) rfl rfl (zero_join_eq_setWidth 61 s.irqEn)
  case irqStatus => exact step_hostReads_eq (by decide) rfl rfl (zero_join_ofBool s.cmdDone)
  case degree => exact step_hostReads_eq (by decide) rfl rfl (zero_join_eq_setWidth 57 s.degree)
  case redLo => exact step_hostReads_eq (by decide) rfl rfl (loWord_eq_setWidth s.reduction)
  case mode => exact step_hostReads_eq (by decide) rfl rfl (zero_join_ofBool s.primOnly)
  all_goals exact step_hostReads_view s (by decide) rfl rfl

/-! Operand words while busy, and reads repeated (20_memory.md R66, R69) -/

/-- The value of after the next core step is that of the state the core's turn leaves. -/
theorem State.afterCommand_of_coreStep {s t : State} (h : coreStep s.tick = .next t) : s.afterCommand = t := by
  rw [State.afterCommand, h]

/-- What a register shows does not depend on the model's own fields. -/
theorem State.view_withOwn (s : State) (evs : List Event) (x : Word) (m k : Nat) (r : WinReg) :
    (s.withOwn evs x m k).view r = s.view r := by
  cases r <;> rfl

/-- A read that draws nothing returns the same whatever was read before: the choice of an operand word depends on the
count of moves, which no read changes. -/
theorem State.readValue_withOwn (s : State) (evs : List Event) (x : Word) (m : Nat) (r : WinReg) :
    (s.withOwn evs x m s.moves).readValue r = s.readValue r := by
  obtain ⟨t, ht⟩ := coreStep_next s.tick
  have hafter : (s.withOwn evs x m s.moves).afterCommand = t.withOwn evs x m (s.moves + 1) :=
    State.afterCommand_of_coreStep (coreStep_withOwn s.tick evs x m (s.moves + 1) ht)
  have hnew : (s.withOwn evs x m s.moves).seesNew r = s.seesNew r := by cases r <;> rfl
  rw [State.readValue, State.readValue, hafter, hnew, State.view_withOwn, State.view_withOwn,
    State.afterCommand_of_coreStep ht]

/-- A read that is no free choice, while idle and of the registers that are free only while busy (20_memory.md R69). -/
theorem step_hostReads_no_free_choice {s : State} {off : WinOffset} {x : Word} (haligned : off.toNat % 8 = 0)
    (h : s.seq = .idle ∨ (off.toNat < 0x100 ∧ off ≠ 0x098 ∧ off ≠ 0x0A0) ∨
      ((off = 0x098 ∨ off = 0x0A0) ∧ s.running = false)) (hx : s.view (winRegAt off) = x) :
    step (s.hostReads off) = .next { s with rdata := x } := by
  obtain ⟨hdraws, hnew⟩ := no_free_choice haligned h
  exact step_hostReads_eq haligned hdraws hnew hx

/-- A read of any other register than NK_A and NK_CTL gives the same value however many reads came before. -/
theorem step_hostReads_repeated (s : State) {off : WinOffset} (evs : List Event) (x : Word) (m : Nat)
    (haligned : off.toNat % 8 = 0) (hA : off ≠ 0x098) (hCtl : off ≠ 0x0A0) :
    ∃ y, step (s.hostReads off) = .next { s with rdata := y } ∧
      step ((s.withOwn evs x m s.moves).hostReads off) = .next { s.withOwn evs x m s.moves with rdata := y } := by
  obtain ⟨hnkA, hnkCtl⟩ := winRegAt_nk_iff off haligned
  have hne := And.intro (mt hnkA.1 hA) (mt hnkCtl.1 hCtl)
  refine ⟨_, step_hostReads_value s haligned (State.drawsOn_eq_false (.inr hne)), ?_⟩
  rw [step_hostReads_value _ haligned (State.drawsOn_eq_false (.inr hne)), State.readValue_withOwn]

/-- Settles O52: what a read leaves, the map, the necklace words, the operand words while idle, and a read repeated. -/
theorem readsChangeNothing : Obligations.ReadsChangeNothing := by
  intro s
  rw [status_running]
  refine ⟨fun off haligned => ⟨_, _, step_hostReads_frame s haligned, fun h => ?_⟩, step_hostReads_shown s,
    fun hrun => ⟨?_, ?_⟩, fun hidle k => ⟨?_, ?_⟩, ?_⟩
  · obtain ⟨hdraws, hnew⟩ := no_free_choice haligned h
    simp [State.readReg, State.readValue, hdraws, hnew]
  · exact step_hostReads_no_free_choice (by decide) (.inr (.inr ⟨.inl rfl, hrun⟩)) rfl
  · exact step_hostReads_no_free_choice (by decide) (.inr (.inr ⟨.inr rfl, hrun⟩)) rfl
  · obtain ⟨haligned, hr⟩ := winRegAt_vLo k
    exact step_hostReads_no_free_choice haligned (.inl hidle) (hr ▸ s.view_vLo k)
  · obtain ⟨haligned, hr⟩ := winRegAt_vHi k
    exact step_hostReads_no_free_choice haligned (.inl hidle) (hr ▸ s.view_vHi k)
  · rintro off x m evs u haligned hA hCtl rfl
    exact step_hostReads_repeated s evs x m haligned hA hCtl

/-- A read of a word that is never drawn anew: the present value or that of after the core's next turn (log 5). -/
theorem step_hostReads_old_or_new (s : State) {off : WinOffset} {r : WinReg} (h : off.toNat % 8 = 0)
    (hr : winRegAt off = r) (hd : s.drawsOn r = false) :
    ∃ x, step (s.hostReads off) = .next { s with rdata := x } ∧
      (x = s.view r ∨ ∃ t, step s.coreMoves = .next t ∧ x = t.view r) := by
  subst hr
  refine ⟨_, step_hostReads_value s h hd, ?_⟩
  obtain ⟨t, ht⟩ := coreStep_next s.tick
  rw [State.readValue, State.afterCommand_of_coreStep ht]
  split
  · exact .inr ⟨t, ht, rfl⟩
  · exact .inl rfl

/-- Settles O53: both words of an operand. -/
theorem busyOperandReadIsOldOrNew : Obligations.BusyOperandReadIsOldOrNew := by
  intro s k
  obtain ⟨halignedLo, hrLo⟩ := winRegAt_vLo k
  obtain ⟨halignedHi, hrHi⟩ := winRegAt_vHi k
  have hreadLo := step_hostReads_old_or_new s halignedLo hrLo rfl
  have hreadHi := step_hostReads_old_or_new s halignedHi hrHi rfl
  simp only [State.view_vLo] at hreadLo
  simp only [State.view_vHi] at hreadHi
  exact ⟨hreadLo, hreadHi⟩

/-! Writes (10_state.md R30 to R39) -/

/-- While idle a write of a locked register stores its word. -/
theorem State.writeReg_locked_idle {s : State} {r : WinReg} (off : WinOffset) (w : Word) (hr : r.locked = true)
    (hq : s.seq = .idle) : s.writeReg off r w = s.store w r := by
  have hbusy : (r.locked && s.busy) = false := by rw [hr, State.busy, hq]; rfl
  cases r with
  | degree | redLo | redHi | groupOrder | ceiling | mode | vLo | vHi => exact if_neg (Bool.eq_false_iff.1 hbusy)
  | _ => cases hr

/-- The same as a step. -/
theorem step_hostWrites_store {s : State} {off : WinOffset} (w : Word) (haligned : off.toNat % 8 = 0)
    (h : s.seq = .idle ∧ (winRegAt off).locked = true ∨ winRegAt off = .irqEn) :
    step (s.hostWrites off w) = .next (s.tick.store w (winRegAt off)) := by
  rw [step_hostWrites_writeReg s w haligned]
  rcases h with ⟨hq, hl⟩ | hr
  · rw [State.writeReg_locked_idle (s := s.tick) off w hl hq]
  · rw [hr]
    rfl

/-! What the window shows after a write -/

theorem loWord_toNat (x : Operand) : (loWord x).toNat = x.toNat % 2 ^ 64 := by
  rw [loWord_eq_setWidth, BitVec.toNat_setWidth]

theorem hiWord_toNat (x : Operand) : (hiWord x).toNat = x.toNat / 2 ^ 64 % 2 := by
  rw [hiWord, BitVec.toNat_setWidth, BitVec.extractLsb'_toNat, Nat.shiftRight_eq_div_pow]
  omega

theorem withLo_toNat (x : Operand) (w : Word) : (withLo x w).toNat = x.toNat / 2 ^ 64 % 2 * 2 ^ 64 + w.toNat := by
  rw [withLo, toNat_join, BitVec.extractLsb'_toNat, Nat.shiftRight_eq_div_pow, pow_one]

theorem withHi_toNat (x : Operand) (w : Word) : (withHi x w).toNat = w.toNat % 2 * 2 ^ 64 + x.toNat % 2 ^ 64 := by
  rw [withHi, toNat_join, BitVec.extractLsb'_toNat, BitVec.extractLsb'_toNat, Nat.shiftRight_zero, Nat.shiftRight_zero,
    pow_one]

/-- A word whose number is the low n bits of `w` is `w` under a mask. -/
theorem eq_and_mask {x w : Word} {n : Nat} (hn : n ≤ 64) (h : x.toNat = w.toNat % 2 ^ n) :
    x = w &&& BitVec.ofNat 64 (2 ^ n - 1) := by
  have hmask : 2 ^ n - 1 < 2 ^ 64 := (Nat.sub_lt (Nat.two_pow_pos n) one_pos).trans_le (Nat.pow_le_pow_right two_pos hn)
  apply BitVec.eq_of_toNat_eq
  rw [h, BitVec.toNat_and, BitVec.toNat_ofNat, Nat.mod_eq_of_lt hmask, Nat.and_two_pow_sub_one_eq_mod]

theorem loWord_withLo (x : Operand) (w : Word) : loWord (withLo x w) = w := by
  apply BitVec.eq_of_toNat_eq
  have hw := w.isLt
  rw [loWord_toNat, withLo_toNat]
  omega

theorem hiWord_withLo (x : Operand) (w : Word) : hiWord (withLo x w) = hiWord x := by
  apply BitVec.eq_of_toNat_eq
  have hw := w.isLt
  rw [hiWord_toNat, withLo_toNat, hiWord_toNat]
  omega

theorem loWord_withHi (x : Operand) (w : Word) : loWord (withHi x w) = loWord x := by
  apply BitVec.eq_of_toNat_eq
  rw [loWord_toNat, withHi_toNat, loWord_toNat]
  omega

theorem hiWord_withHi (x : Operand) (w : Word) : hiWord (withHi x w) = w &&& 0x1#64 := by
  refine eq_and_mask (n := 1) (by omega) ?_
  rw [hiWord_toNat, withHi_toNat, pow_one]
  omega

/-- A field below zeros, as the low bits of the word it is taken from. -/
theorem zero_join_low_field (w : Word) (m n : Nat) : (0#m ++ w.extractLsb' 0 n).toNat = w.toNat % 2 ^ n := by
  rw [toNat_join, BitVec.extractLsb'_toNat, Nat.shiftRight_zero]
  simp

/-- The same for a field of one bit. -/
theorem zero_join_low_bit (w : Word) : (0#63 ++ BitVec.ofBool (w.getLsbD 0)).toNat = w.toNat % 2 ^ 1 := by
  rw [zero_join_ofBool, BitVec.getLsbD, Nat.testBit_zero]
  rcases Nat.mod_two_eq_zero_or_one w.toNat with h | h <;> simp [h]

/-- The bits a register stores of the word written; the others are reserved and read 0 (10_state.md R30 to R39). -/
def WinReg.storedBits : WinReg → Word
  | .irqEn => 0x7#64
  | .degree => 0x7F#64
  | .redHi | .mode | .vHi _ => 0x1#64
  | _ => 0xFFFFFFFFFFFFFFFF#64

/-- The register a window number names, after a write of that register or of another. -/
theorem State.getV_setV_window (s : State) (k q : BitVec 3) (x : Operand) :
    (s.setV (k.setWidth 4) x).getV (q.setWidth 4) = if q = k then x else s.getV (q.setWidth 4) := by
  split
  · rename_i h
    have hk : (k.setWidth 4).toNat < 8 := (toNat_setWidth_regNum k).trans_lt k.isLt
    rw [h, s.getV_setV_same _ x hk]
  · rename_i h
    refine s.getV_setV_ne _ _ x fun he => h (BitVec.eq_of_toNat_eq ?_)
    rw [← toNat_setWidth_regNum q, he, toNat_setWidth_regNum]

/-- A written register shows the stored bits of the word. -/
theorem State.view_store_same (s : State) (w : Word) {r : WinReg} (hr : r.locked = true ∨ r = .irqEn) :
    (s.store w r).view r = w &&& r.storedBits := by
  have hfull : w = w &&& 0xFFFFFFFFFFFFFFFF#64 := eq_and_mask (n := 64) le_rfl (Nat.mod_eq_of_lt w.isLt).symm
  cases r with
  | degree => exact eq_and_mask (n := 7) (by omega) (zero_join_low_field w 57 7)
  | irqEn => exact eq_and_mask (n := 3) (by omega) (zero_join_low_field w 61 3)
  | mode => exact eq_and_mask (n := 1) (by omega) (zero_join_low_bit w)
  | redLo => exact (loWord_withLo _ w).trans hfull
  | redHi => exact hiWord_withHi _ w
  | groupOrder | ceiling => exact hfull
  | vLo k =>
    rw [State.store, State.view, State.getV_setV_window, if_pos rfl, loWord_withLo]
    exact hfull
  | vHi k =>
    rw [State.store, State.view, State.getV_setV_window, if_pos rfl, hiWord_withHi]
    rfl
  | _ => simp [WinReg.locked] at hr

/-- An idle core is not held. -/
theorem State.stall_idle {s : State} (h : s.seq = .idle) : s.stall = false := by
  rw [State.stall, h]
  rfl

/-- MODE has a part in STALL, which reads 0 while idle. -/
theorem State.status_store_mode {s : State} (w : Word) (h : s.seq = .idle) :
    (s.store w .mode).view .status = s.view .status := by
  have hstall : (s.store w .mode).stall = s.stall :=
    (State.stall_idle (s := s.store w .mode) h).trans (State.stall_idle h).symm
  rw [State.view, State.view, State.statusWord, State.statusWord, hstall]
  rfl

/-- A write of one word of an operand leaves the other word, and every other operand. -/
theorem State.view_store_operand (s : State) (w : Word) {r q : WinReg} (hr : r.isOperand = true) (hq : q ≠ r) :
    (s.store w r).view q = s.view q := by
  cases r with
  | vLo k => cases q with
    | vLo j =>
      have hj : j ≠ k := fun h => hq (h ▸ rfl)
      rw [State.store, State.view, State.getV_setV_window, if_neg hj, State.view]
    | vHi j =>
      rw [State.store, State.view, State.getV_setV_window, State.view]
      split
      · rename_i h
        rw [hiWord_withLo, h]
      · rfl
    | _ => rfl
  | vHi k => cases q with
    | vHi j =>
      have hj : j ≠ k := fun h => hq (h ▸ rfl)
      rw [State.store, State.view, State.getV_setV_window, if_neg hj, State.view]
    | vLo j =>
      rw [State.store, State.view, State.getV_setV_window, State.view]
      split
      · rename_i h
        rw [loWord_withHi, h]
      · rfl
    | _ => rfl
  | _ => cases hr

/-- Every other register shows what it showed. -/
theorem State.view_store_other {s : State} (w : Word) {r q : WinReg}
    (hr : s.seq = .idle ∧ r.locked = true ∨ r = .irqEn) (hq : q ≠ r) : (s.store w r).view q = s.view q := by
  cases r with
  | degree => cases q with
    | degree => exact absurd rfl hq
    | _ => rfl
  | redLo => cases q with
    | redLo => exact absurd rfl hq
    | redHi => exact hiWord_withLo _ w
    | _ => rfl
  | redHi => cases q with
    | redHi => exact absurd rfl hq
    | redLo => exact loWord_withHi _ w
    | _ => rfl
  | groupOrder => cases q with
    | groupOrder => exact absurd rfl hq
    | _ => rfl
  | ceiling => cases q with
    | ceiling => exact absurd rfl hq
    | _ => rfl
  | mode => cases q with
    | mode => exact absurd rfl hq
    | status =>
      obtain ⟨hidle, -⟩ := hr.resolve_right WinReg.noConfusion
      exact State.status_store_mode w hidle
    | _ => rfl
  | irqEn => cases q with
    | irqEn => exact absurd rfl hq
    | _ => rfl
  | vLo | vHi => exact s.view_store_operand w rfl hq
  | _ => simp [WinReg.locked] at hr

/-- The registers that store a word by offset (20_memory.md R61). -/
theorem storing_of_offset {s : State} {off : WinOffset} (h : s.seq = .idle ∧ LockedOffset off ∨ off = 0x040) :
    off.toNat % 8 = 0 ∧ (s.seq = .idle ∧ (winRegAt off).locked = true ∨ winRegAt off = .irqEn) := by
  rcases h with ⟨hq, hoff⟩ | rfl
  · have haligned : off.toNat % 8 = 0 := hoff.1
    exact ⟨haligned, .inl ⟨hq, (winRegAt_locked off haligned).2 hoff⟩⟩
  · exact ⟨by decide, .inr rfl⟩

/-- A write of the register file at a window number. -/
theorem State.setV_window (s : State) (k : Fin 8) (x : Operand) :
    s.setV ((BitVec.ofNat 3 k.val).setWidth 4) x = { s with v := s.v.set k.val x k.isLt } := by
  have hk : ((BitVec.ofNat 3 k.val).setWidth 4).toNat = k.val := by
    rw [toNat_setWidth_regNum, BitVec.toNat_ofNat, Nat.mod_eq_of_lt k.isLt]
  have hset : s.v.setIfInBounds k.val x = s.v.set k.val x k.isLt := by
    ext i hi
    rw [Vector.getElem_setIfInBounds, Vector.getElem_set]
  rw [State.setV, hk, hset]

/-- A write of Vk_LO and of Vk_HI while idle (10_state.md R39). -/
theorem step_hostWrites_operand {s : State} (w : Word) (hq : s.seq = .idle) (k : Fin 8) :
    step (s.hostWrites (BitVec.ofNat 9 (0x100 + 0x10 * k.val)) w) =
      .next { s.tick with v := s.v.set k.val (withLo s.v[k] w) k.isLt } ∧
    step (s.hostWrites (BitVec.ofNat 9 (0x108 + 0x10 * k.val)) w) =
      .next { s.tick with v := s.v.set k.val (withHi s.v[k] w) k.isLt } := by
  obtain ⟨halignedLo, hrLo⟩ := winRegAt_vLo k
  obtain ⟨halignedHi, hrHi⟩ := winRegAt_vHi k
  constructor
  · rw [step_hostWrites_store w halignedLo (.inl ⟨hq, by rw [hrLo]; rfl⟩), hrLo, State.store, State.setV_window,
      State.getV_window]
    rfl
  · rw [step_hostWrites_store w halignedHi (.inl ⟨hq, by rw [hrHi]; rfl⟩), hrHi, State.store, State.setV_window,
      State.getV_window]
    rfl

/-- Settles O54: the stored field of each register, and the window before and after. -/
theorem writesReadBackAndChangeNoOther : Obligations.WritesReadBackAndChangeNoOther := by
  refine ⟨fun s w hq => ?_, fun s w => step_hostWrites_store w (by decide) (.inr rfl), State.getV_ofNat,
    fun s off w h => ?_⟩
  · have hstore : ∀ off : WinOffset, off.toNat % 8 = 0 → (winRegAt off).locked = true →
        step (s.hostWrites off w) = .next (s.tick.store w (winRegAt off)) :=
      fun _ haligned hl => step_hostWrites_store w haligned (.inl ⟨hq, hl⟩)
    refine ⟨?_, ?_, ?_, ?_, ?_, ?_, step_hostWrites_operand w hq⟩ <;> exact hstore _ (by decide) rfl
  · obtain ⟨haligned, hr⟩ := storing_of_offset h
    refine ⟨_, step_hostWrites_store w haligned hr, fun r hne => ?_, ?_⟩
    · exact (State.view_store_other (s := s.tick) w hr hne).trans
        (s.view_withOwn s.schedule s.rdata s.draws (s.moves + 1) r)
    · rw [s.tick.view_store_same w (hr.imp_left And.right)]
      cases winRegAt off <;> rfl

end Sys2Proof.Machine
